-- ==== Sys2Proof/Word.lean ====
section
/-! DEFINITION. The two widths of the machine: a byte of the Bytecode Buffer and the 64-bit word of
an operand, a stack cell and the instruction pointer (00_scope.md R4, R5). -/

namespace Sys2Proof

/-- One byte of the Bytecode Buffer (R5, R30). -/
abbrev Byte := BitVec 8

/-- A 64-bit pattern (R5). `w.toNat` is the spec's `u(w)` and `w.toInt` its two's-complement reading
`s(w)`; `w.getLsbD i` is the bit `w[i]`. -/
abbrev Word := BitVec 64

/-- `MIN`, the pattern of -2^63 (R5). -/
def minWord : Word := 0x8000000000000000#64

/-- `MAX`, the pattern of 2^63 - 1 (R5). -/
def maxWord : Word := 0x7FFFFFFFFFFFFFFF#64

end Sys2Proof
end

