-- ==== Sys2Proof/Config.lean ====
section
/-! DEFINITION. The parameters an implementation or its environment fixes (00_scope.md R4, 10_state.md
R22): the Bytecode Buffer, STACK_DEPTH and PLACEHOLDER_TEXT. No instruction changes one. The values
that are legal are the checks of Sys2Proof/WellFormed.lean. -/

namespace Sys2Proof

/-- What the environment presents at construction (R4, R202). -/
structure Params where
  /-- `prog`, the Bytecode Buffer; its length is `L` (R4, R22). -/
  prog : List Byte
  /-- `STACK_DEPTH` (R4, 92 D12): `none` is `unbounded`, the spec's default. -/
  stackDepth : Option Nat := none
  /-- `PLACEHOLDER_TEXT` (R4, 92 D13), as the bytes the sink writes. -/
  placeholder : List Byte
  deriving DecidableEq, Repr

/-- The largest length of a Bytecode Buffer, 2^63 - 1 (R4, R207; 92 D1). -/
def Config.maxLen : Nat := 2 ^ 63 - 1

/-- The length in bytes of an operand, OPERAND_BYTES (R4). -/
def Config.operandBytes : Nat := 8

/-- The number of defined opcode bytes, NUM_OPCODES (R4; 90_conflicts.md C1). -/
def Config.numOpcodes : Nat := 28

end Sys2Proof
end

