-- ==== Sys2Proof/Syntax.lean ====
section
/-! DEFINITION. The closed set of 28 instructions (30_encoding.md R54, R56), one constructor per row
of spec/opcode_table.json. The operand of an OPI instruction is the 64-bit word of R53; whether it is
a value, an absolute byte offset or a shift distance is fixed per opcode (R55). -/

namespace Sys2Proof

/-- One decoded instruction (R54). -/
inductive Instr where
  /-- NOP, byte 0 (R90). -/
  | nop
  /-- PUSH, byte 1, the value pushed (R91). -/
  | push (imm : Word)
  /-- DUP, byte 2 (R92). -/
  | dup
  /-- POP, byte 3 (R93). -/
  | pop
  /-- CMP, byte 4 (R100). -/
  | cmp
  /-- JMP, byte 5, the target offset (R101). -/
  | jmp (imm : Word)
  /-- JE, byte 6, the target offset (R102). -/
  | je (imm : Word)
  /-- JNE, byte 7, the target offset (R103). -/
  | jne (imm : Word)
  /-- JL, byte 8, the target offset (R104). -/
  | jl (imm : Word)
  /-- JLE, byte 9, the target offset (R105). -/
  | jle (imm : Word)
  /-- JG, byte 10, the target offset (R106). -/
  | jg (imm : Word)
  /-- JGE, byte 11, the target offset (R107). -/
  | jge (imm : Word)
  /-- NOT, byte 12 (R120). -/
  | not
  /-- NEG, byte 13 (R121). -/
  | neg
  /-- ROL, byte 14 (R122). -/
  | rol
  /-- ROR, byte 15 (R123). -/
  | ror
  /-- SHL, byte 16, the distance word (R124). -/
  | shl (imm : Word)
  /-- SHR, byte 17, the distance word (R125). -/
  | shr (imm : Word)
  /-- INC, byte 18 (R126). -/
  | inc
  /-- DEC, byte 19 (R127). -/
  | dec
  /-- AND, byte 20 (R140). -/
  | and
  /-- OR, byte 21 (R141). -/
  | or
  /-- XOR, byte 22 (R142). -/
  | xor
  /-- ADD, byte 23 (R143). -/
  | add
  /-- SUB, byte 24 (R144). -/
  | sub
  /-- MUL, byte 25 (R145). -/
  | mul
  /-- DIV, byte 26 (R146). -/
  | div
  /-- PRNT, byte 27 (R160). -/
  | prnt
  deriving DecidableEq, Repr

end Sys2Proof
end

