-- ==== Sys2Proof/Decode.lean ====
section
/-! DEFINITION. The instruction decoder (30_encoding.md R50 to R60), total on any bytes and rejecting
by name, then the encoder written from the same tables, then the host's table entry point. -/

namespace Sys2Proof

/-- Why bytes are no instruction. -/
inductive DecodeError where
  /-- There is no byte at all. Decoding is asked only while `ip < L` (R71), so a run never meets this. -/
  | noByte
  /-- The opcode byte is 28 to 255 (R56). -/
  | illegal
  /-- Fewer than 8 bytes follow an opcode that has an operand (R53, R173). -/
  | truncated
  deriving DecidableEq, Repr

/-- The word of eight bytes, least significant byte first: `w[8k+7 : 8k]` is byte k (R31). -/
def leWord (b0 b1 b2 b3 b4 b5 b6 b7 : Byte) : Word :=
  b7 ++ b6 ++ b5 ++ b4 ++ b3 ++ b2 ++ b1 ++ b0

/-- Byte k of a word, `w[8k+7 : 8k]` (R31). -/
def wordByte (w : Word) (k : Nat) : Byte := w.extractLsb' (8 * k) 8

/-- The eight bytes of a word in address order (R31). -/
def wordBytes (w : Word) : List Byte :=
  [wordByte w 0, wordByte w 1, wordByte w 2, wordByte w 3, wordByte w 4, wordByte w 5, wordByte w 6, wordByte w 7]

/-- The first eight bytes as a word, with the bytes after them; none if there are fewer (R53). -/
def takeWord : List Byte → Option (Word × List Byte)
  | b0 :: b1 :: b2 :: b3 :: b4 :: b5 :: b6 :: b7 :: rest => some (leWord b0 b1 b2 b3 b4 b5 b6 b7, rest)
  | _ => none

/-- An OPI instruction from the bytes after its opcode (R53). -/
def decodeOperand (mk : Word → Instr) (bytes : List Byte) : Except DecodeError (Instr × List Byte) :=
  match takeWord bytes with
  | some (imm, rest) => .ok (mk imm, rest)
  | none => .error .truncated

/-- The opcode map (R54): the opcode is the whole first byte, read as an unsigned number (R51). -/
def decode : List Byte → Except DecodeError (Instr × List Byte)
  | [] => .error .noByte
  | op :: rest =>
    match op.toNat with
    | 0 => .ok (.nop, rest)
    | 1 => decodeOperand .push rest
    | 2 => .ok (.dup, rest)
    | 3 => .ok (.pop, rest)
    | 4 => .ok (.cmp, rest)
    | 5 => decodeOperand .jmp rest
    | 6 => decodeOperand .je rest
    | 7 => decodeOperand .jne rest
    | 8 => decodeOperand .jl rest
    | 9 => decodeOperand .jle rest
    | 10 => decodeOperand .jg rest
    | 11 => decodeOperand .jge rest
    | 12 => .ok (.not, rest)
    | 13 => .ok (.neg, rest)
    | 14 => .ok (.rol, rest)
    | 15 => .ok (.ror, rest)
    | 16 => decodeOperand .shl rest
    | 17 => decodeOperand .shr rest
    | 18 => .ok (.inc, rest)
    | 19 => .ok (.dec, rest)
    | 20 => .ok (.and, rest)
    | 21 => .ok (.or, rest)
    | 22 => .ok (.xor, rest)
    | 23 => .ok (.add, rest)
    | 24 => .ok (.sub, rest)
    | 25 => .ok (.mul, rest)
    | 26 => .ok (.div, rest)
    | 27 => .ok (.prnt, rest)
    | _ => .error .illegal

/-- The opcode byte of an instruction (R54). -/
def Instr.opcode : Instr → Byte
  | .nop => 0x00#8
  | .push _ => 0x01#8
  | .dup => 0x02#8
  | .pop => 0x03#8
  | .cmp => 0x04#8
  | .jmp _ => 0x05#8
  | .je _ => 0x06#8
  | .jne _ => 0x07#8
  | .jl _ => 0x08#8
  | .jle _ => 0x09#8
  | .jg _ => 0x0A#8
  | .jge _ => 0x0B#8
  | .not => 0x0C#8
  | .neg => 0x0D#8
  | .rol => 0x0E#8
  | .ror => 0x0F#8
  | .shl _ => 0x10#8
  | .shr _ => 0x11#8
  | .inc => 0x12#8
  | .dec => 0x13#8
  | .and => 0x14#8
  | .or => 0x15#8
  | .xor => 0x16#8
  | .add => 0x17#8
  | .sub => 0x18#8
  | .mul => 0x19#8
  | .div => 0x1A#8
  | .prnt => 0x1B#8

/-- The operand word of an instruction of format OPI, none for format OP (R50, R52). -/
def Instr.operand : Instr → Option Word
  | .push imm | .jmp imm | .je imm | .jne imm | .jl imm | .jle imm | .jg imm | .jge imm => some imm
  | .shl imm | .shr imm => some imm
  | .nop | .dup | .pop | .cmp | .not | .neg | .rol | .ror | .inc | .dec => none
  | .and | .or | .xor | .add | .sub | .mul | .div | .prnt => none

/-- The bytes of an instruction in address order (R50): the opcode, then the operand's eight bytes. -/
def encode (i : Instr) : List Byte :=
  i.opcode :: (match i.operand with
    | some imm => wordBytes imm
    | none => [])

/-- The low `k` bytes of a number, least significant first. -/
def natBytes : Nat → Nat → List Byte
  | 0, _ => []
  | k + 1, w => BitVec.ofNat 8 w :: natBytes k (w / 256)

/-- The nine bytes, the longest instruction (R52), of a table word of `nbits` bits: bits 7:0 are byte
0 and bits 71:8 bytes 1 to 8 (opcode_table.json, encoding_note); every bit from `nbits` on is 0. -/
def tableBytes (nbits w : Nat) : List Byte := natBytes 9 (w % 2 ^ nbits)

/-- The instruction the decoder reads from a table word. -/
def decodeTableWord (nbits w : Nat) : Option Instr :=
  match decode (tableBytes nbits w) with
  | .ok (i, _) => some i
  | .error _ => none

end Sys2Proof
end

