-- ==== Sys2Proof/Machine/State.lean ====
section
/-! DEFINITION. The architectural state of the block (10_state.md R10) together with the parameters a
step reads (00_scope.md R4), as plain data, and its reset value (10 R24, 70_reset_and_hazards.md R201). -/

namespace Sys2Proof.Machine

/-- The Bytecode Buffer's contents as address and byte pairs in one canonical form (log 2): addresses
strictly rising and no entry equal to the byte an unlisted offset reads as. -/
abbrev Memory := List Host.Cell

/-- The fault kinds of 60_exceptions.md R170. They are values of the state field `fault`, set by a next
state (R178), not outcomes of the host's `fault` form. -/
inductive FaultKind where
  /-- The opcode byte is 28 to 255 (R172). -/
  | invalidOpcode
  /-- Fewer than 8 bytes follow the opcode of an instruction with an operand (R173). -/
  | truncatedOperand
  /-- The depth is less than the instruction needs (R174). -/
  | emptyStack
  /-- DIV with a zero divisor (R175). -/
  | divisionByZero
  /-- PUSH or DUP on a full stack of finite depth (R176). -/
  | stackOverflow
  deriving DecidableEq, Repr

/-- The fault record `(kind, at)` (10 R10, R19). -/
structure FaultRecord where
  /-- `fault.kind` (R19). -/
  kind : FaultKind
  /-- `fault.at`, the offset of the faulting instruction's opcode byte (R19, R178). -/
  atIp : Word
  deriving DecidableEq, Repr

/-- One event sent to the output sink (10 R21). -/
inductive Event where
  /-- `Val(v)`, a printed value. -/
  | val (v : Word)
  /-- `Empty`, the placeholder of a PRNT on an empty stack. -/
  | empty
  deriving DecidableEq, Repr

/-- The status of the machine, a function of the state (10 R20). -/
inductive Status where
  /-- `fault = None` and `ip < L`. -/
  | running
  /-- `fault = None` and `ip >= L`: the normal end of a run (40 R71). -/
  | halted
  /-- `fault != None`: the abnormal end of a run (60 R178). -/
  | faulted
  deriving DecidableEq, Repr

/-- The state. The first four fields are the spec's four-tuple `(ip, S, fault, out)` (10 R10); the last
three are the parameters `prog`, `L` and `STACK_DEPTH`, which no instruction changes (10 R22, log 1). -/
structure State where
  /-- `ip`, the instruction pointer, unsigned (10 R16, R17). -/
  ip : Word
  /-- The operand stack, TOP FIRST: the head is `top`, the next `second` (10 R12, log 6). -/
  stack : List Word
  /-- `fault`: `none`, or the latched record (10 R10, R19). -/
  fault : Option FaultRecord
  /-- `out`, the events sent to the sink, oldest first (10 R21). -/
  out : List Event
  /-- `prog`, the Bytecode Buffer (00 R4, 20 R30). -/
  prog : Memory
  /-- `L`, its length in bytes (00 R4). -/
  len : Nat
  /-- `STACK_DEPTH`; `none` is unbounded (00 R4). -/
  stackDepth : Option Nat
  deriving DecidableEq, Repr

/-- Stops of the host's `fault` form. The spec's own faults are no stops of this form (see `FaultKind`). -/
inductive Fault where
  /-- Raised by the program read port for a read that is not inside the buffer (20 R35: "No read ever
  returns bytes from outside `prog`"). Safe: the read answers nothing, and no step makes one. -/
  | outsideBuffer
  deriving DecidableEq, Repr

/-- Refusals. None is ever answered: every instruction has its meaning. -/
inductive Refusal where
  /-- An instruction without a meaning, by its mnemonic. Raised by no arm. Safe. -/
  | notModelled (mnemonic : String)
  deriving DecidableEq, Repr

/-- The machine right after reset, before any buffer has been presented (10 R24, 70 R201): `ip = 0`,
the stack and `out` empty, no fault; the buffer is empty (log 4) and STACK_DEPTH is the default,
unbounded (00 R4). With `L = 0` the status is Halted (70 R201). -/
def State.reset : State where
  ip := 0#64
  stack := []
  fault := none
  out := []
  prog := []
  len := 0
  stackDepth := none

end Sys2Proof.Machine
end

