-- ==== Sys2Proof/Machine/Ops.lean ====
section
/-! DEFINITION. The named operations over the state: the Bytecode Buffer, the program read port,
status, the stack's push, pop and replace, the output port, the next instruction pointer, taking a
fault, and construction (the reset of 70_reset_and_hazards.md R200). -/

namespace Sys2Proof.Machine

/-! ### The Bytecode Buffer -/

/-- What an offset that is not listed reads as. Every byte below `L` is given by the environment, so
this is a way of writing buffers down, not a value the hardware chooses (log 2). -/
def Memory.unlisted : Byte := 0x00#8

/-- The byte at an offset, without regard to `L`. -/
def Memory.read : Memory → Nat → Byte
  | [], _ => Memory.unlisted
  | (k, v) :: m, a => if a = k then v else Memory.read m a

/-- The buffer with one byte replaced. Used by the environment only: no instruction writes (20 R36). -/
def Memory.write : Memory → Nat → Byte → Memory
  | [], a, b => if b = Memory.unlisted then [] else [(a, b)]
  | (k, v) :: m, a, b =>
    if a < k then (if b = Memory.unlisted then (k, v) :: m else (a, b) :: (k, v) :: m)
    else if a = k then (if b = Memory.unlisted then m else (k, b) :: m)
    else (k, v) :: Memory.write m a b

/-- The buffer with consecutive bytes replaced from an offset on. -/
def Memory.writeBytes : Memory → Nat → List Byte → Memory
  | m, _, [] => m
  | m, a, b :: bs => Memory.writeBytes (Memory.write m a b) (a + 1) bs

/-- The listing of consecutive bytes from an offset on. -/
def Memory.ofBytes : Nat → List Byte → Memory
  | _, [] => []
  | a, b :: bs => if b = Memory.unlisted then Memory.ofBytes (a + 1) bs else (a, b) :: Memory.ofBytes (a + 1) bs

/-- The canonical form above an offset: rising offsets, no entry of the unlisted byte. -/
def Memory.wfFrom : Nat → Memory → Bool
  | _, [] => true
  | lo, (k, v) :: m => lo ≤ k && v != Memory.unlisted && Memory.wfFrom (k + 1) m

/-- The canonical form: two buffers with the same bytes are the same listing. -/
def Memory.wf (m : Memory) : Bool := Memory.wfFrom 0 m

/-- Every listed offset is inside a buffer of the given length. -/
def Memory.below (m : Memory) (len : Nat) : Bool := m.all (fun c => c.1 < len)

/-! ### The program read port (40 R81) -/

/-- `MemRead(a, 1)`, defined only inside the buffer (00 R6, 20 R32, R35). -/
def State.memRead1 (s : State) (a : Nat) : Except Fault Byte :=
  if a < s.len then .ok (s.prog.read a) else .error .outsideBuffer

/-- The bytes of the buffer from offset `a` on, at most `k`, ending where the buffer ends (20 R35:
"there is no padding, no wrap-around to offset 0 and no default value for a missing byte"). -/
def State.readBytes (s : State) : Nat → Nat → List Byte
  | _, 0 => []
  | a, k + 1 =>
    match s.memRead1 a with
    | .ok b => b :: State.readBytes s (a + 1) k
    | .error _ => []

/-- `MemRead(a, 8)` as a little-endian word, defined only when `a + 8 <= L` (00 R6, 20 R31, R35). -/
def State.memRead8 (s : State) (a : Nat) : Except Fault Word :=
  match takeWord (s.readBytes a 8) with
  | some (w, _) => .ok w
  | none => .error .outsideBuffer

/-! ### Status and the spec's names for parts of the state -/

/-- The status (10 R20, 40 R71): the test is `ip >= L`, and a faulted machine is never Halted. -/
def State.status (s : State) : Status :=
  match s.fault with
  | some _ => .faulted
  | none => if s.ip.toNat < s.len then .running else .halted

/-- `S` in the spec's order, `S[0]` the oldest element (00 R6). -/
def State.S (s : State) : List Word := s.stack.reverse

/-- `n + 1 > STACK_DEPTH`: one more cell does not fit (60 R176); never when it is unbounded. -/
def State.full (s : State) : Bool :=
  match s.stackDepth with
  | none => false
  | some d => d < s.stack.length + 1

/-- The numeric code of a fault kind (60 R171; 92 D14). -/
def FaultKind.code : FaultKind → Nat
  | .invalidOpcode => 1
  | .truncatedOperand => 2
  | .emptyStack => 3
  | .divisionByZero => 4
  | .stackOverflow => 5

/-- `fault.kind` as the status register shows it, 0 for none (10 R19). -/
def State.faultCode (s : State) : Nat :=
  match s.fault with
  | none => 0
  | some r => r.kind.code

/-! ### Changes of the state -/

/-- The stack becomes `st` (top first). -/
def State.withStack (s : State) (st : List Word) : State := { s with stack := st }

/-- `push(v)` (00 R6, 10 R14). -/
def State.push (s : State) (v : Word) : State := s.withStack (v :: s.stack)

/-- `emit(e)`: `out <- out ++ [e]` (00 R6, 10 R21). -/
def State.emit (s : State) (e : Event) : State := { s with out := s.out ++ [e] }

/-- `ip <- t` (00 R6; class (c) of 40 R76). -/
def State.goto (s : State) (t : Word) : State := { s with ip := t }

/-- `ip <- ip + 1`, past an instruction of format OP (class (a) of 40 R76). -/
def State.advanceOp (s : State) : State := s.goto (s.ip + 1#64)

/-- `ip <- ip + 9`, past an instruction of format OPI (class (b) of 40 R76). -/
def State.advanceOpi (s : State) : State := s.goto (s.ip + 9#64)

/-- TAKING A FAULT, `raise K(ip)` (60 R178): `fault <- (K, ip)`; `ip`, `S` and `out` are unchanged, and
nothing is saved anywhere else. There is no return from a fault (60 R179): no operation clears
`fault` but construction. -/
def State.raise (s : State) (k : FaultKind) : State := { s with fault := some ⟨k, s.ip⟩ }

/-! ### Construction -/

/-- Reset, which is construction with a buffer (70 R200, R201; 92 D16). Nothing of an earlier run
survives (10 R24), so it takes no state. -/
def State.construct (p : Params) : State where
  ip := 0#64
  stack := []
  fault := none
  out := []
  prog := Memory.ofBytes 0 p.prog
  len := p.prog.length
  stackDepth := p.stackDepth

end Sys2Proof.Machine
end

