-- ==== Sys2Proof/Machine/Operands.lean ====
section
/-! DEFINITION. Operand forms: how an operand word is read (30_encoding.md R55), how an instruction
reaches the top one or two stack cells and faults when they are not there (40_dispatch_loop.md R74),
the reduction of exact results to 64 bits (00_scope.md R5), and the tables of 30 R52, 40 R74, 40 R72
and 10 R15. -/

namespace Sys2Proof.Machine

/-! ### Words -/

/-- `wrap64(z)` as a word: the pattern whose signed reading is congruent to z modulo 2^64 (R5). -/
def wrap64 (z : Int) : Word := BitVec.ofInt 64 z

/-- A jump target: the operand's 64 bits, read as unsigned when they become `ip` (R108 (1), 92 D2). -/
def jumpTarget (imm : Word) : Word := imm

/-- A shift distance: `imm_word[5:0]` (R128 (3), 92 D5). -/
def shiftDistance (imm : Word) : Nat := (imm.extractLsb' 0 6).toNat

/-! ### Reaching the stack (10 R13, R14; 40 R74) -/

/-- An instruction that needs one element: EmptyStack on an empty stack, else `k top rest`. -/
def withTop (s : State) (k : Word → List Word → State) : Host.Outcome State Fault Refusal :=
  match s.stack with
  | [] => .next (s.raise .emptyStack)
  | t :: rest => .next (k t rest)

/-- An instruction that needs two elements: EmptyStack at depth 0 or 1 with nothing removed (R7), else
`k top second rest`. -/
def withTopTwo (s : State) (k : Word → Word → List Word → State) : Host.Outcome State Fault Refusal :=
  match s.stack with
  | x :: y :: rest => .next (k x y rest)
  | _ => .next (s.raise .emptyStack)

/-- An instruction that adds an element: StackOverflow on a full stack, the last check (60 R176, R177). -/
def unlessFull (s : State) (t : State) : State := if s.full then s.raise .stackOverflow else t

/-- `top <- f(top)` for an instruction of format OP (R128 (1)). -/
def replaceTop (f : Word → Word) (s : State) : Host.Outcome State Fault Refusal :=
  withTop s (fun t rest => (s.withStack (f t :: rest)).advanceOp)

/-- `top <- f(top)` for an instruction of format OPI (R128 (1)). -/
def replaceTopOpi (f : Word → Word) (s : State) : Host.Outcome State Fault Refusal :=
  withTop s (fun t rest => (s.withStack (f t :: rest)).advanceOpi)

/-- `pop x, pop y; push f x y` with `x = top` and `y = second` (00 R8, 44 R148). -/
def combineTopTwo (f : Word → Word → Word) (s : State) : Host.Outcome State Fault Refusal :=
  withTopTwo s (fun x y rest => (s.withStack (f x y :: rest)).advanceOp)

/-! ### Tables over the opcode byte -/

/-- `has_operand(op)` (30 R52). -/
def opcodeHasOperand (op : Byte) : Bool :=
  [0x01#8, 0x05#8, 0x06#8, 0x07#8, 0x08#8, 0x09#8, 0x0A#8, 0x0B#8, 0x10#8, 0x11#8].contains op

/-- `need(op)`, the least depth (40 R74), for the 28 defined bytes. -/
def opcodeNeed (op : Byte) : Nat :=
  if [0x00#8, 0x01#8, 0x05#8, 0x1B#8].contains op then 0
  else if [0x04#8, 0x14#8, 0x15#8, 0x16#8, 0x17#8, 0x18#8, 0x19#8, 0x1A#8].contains op then 2
  else 1

/-- `grows(op)`: PUSH and DUP (40 R72). -/
def opcodeGrows (op : Byte) : Bool := [0x01#8, 0x02#8].contains op

/-- The depth after instruction `i` succeeds at depth `n` (10 R15). -/
def depthAfter (i : Instr) (n : Nat) : Nat :=
  match i with
  | .push _ | .dup => n + 1
  | .pop | .cmp | .and | .or | .xor | .add | .sub | .mul | .div => n - 1
  | .prnt => n - 1
  | .nop | .jmp _ | .je _ | .jne _ | .jl _ | .jle _ | .jg _ | .jge _ => n
  | .not | .neg | .rol | .ror | .shl _ | .shr _ | .inc | .dec => n

end Sys2Proof.Machine
end

