-- ==== Sys2Proof/Machine/BinaryAlu.lean ====
section
/-! DEFINITION. The two-operand ALU instructions AND, OR, XOR, ADD, SUB, MUL and DIV
(44_binary_alu.md R140 to R148). In every result `x = top` and `y = second` (00_scope.md R8). -/

namespace Sys2Proof.Machine

/-- `r[i] = x[i] and y[i]` (R140). -/
def andResult (x y : Word) : Word := x &&& y

/-- `r[i] = x[i] or y[i]` (R141). -/
def orResult (x y : Word) : Word := x ||| y

/-- `r[i] = x[i] xor y[i]` (R142). -/
def xorResult (x y : Word) : Word := x ^^^ y

/-- `wrap64(x + y)` (R143). -/
def addResult (x y : Word) : Word := wrap64 (x.toInt + y.toInt)

/-- `wrap64(y - x)` (R144). -/
def subResult (x y : Word) : Word := wrap64 (y.toInt - x.toInt)

/-- `wrap64(x * y)` (R145). -/
def mulResult (x y : Word) : Word := wrap64 (x.toInt * y.toInt)

/-- `wrap64(sign(y) * sign(x) * floor(|y| / |x|))` (R146), for `x` not 0. -/
def divResult (x y : Word) : Word :=
  wrap64 (y.toInt.sign * x.toInt.sign * ((y.toInt.natAbs / x.toInt.natAbs : Nat) : Int))

/-- AND (R140). -/
def execAnd (s : State) : Host.Outcome State Fault Refusal := combineTopTwo andResult s

/-- OR (R141). -/
def execOr (s : State) : Host.Outcome State Fault Refusal := combineTopTwo orResult s

/-- XOR (R142). -/
def execXor (s : State) : Host.Outcome State Fault Refusal := combineTopTwo xorResult s

/-- ADD (R143). -/
def execAdd (s : State) : Host.Outcome State Fault Refusal := combineTopTwo addResult s

/-- SUB (R144). -/
def execSub (s : State) : Host.Outcome State Fault Refusal := combineTopTwo subResult s

/-- MUL (R145). -/
def execMul (s : State) : Host.Outcome State Fault Refusal := combineTopTwo mulResult s

/-- DIV (R146): the depth check comes first, then the divisor; on DivisionByZero both operands stay. -/
def execDiv (s : State) : Host.Outcome State Fault Refusal :=
  withTopTwo s (fun x y rest =>
    if x.toInt = 0 then s.raise .divisionByZero else (s.withStack (divResult x y :: rest)).advanceOp)

end Sys2Proof.Machine
end

