-- ==== Sys2Proof/Machine/Flags.lean ====
section
/-! DEFINITION. There is no flag, condition code or predicate register (10_state.md R18). What takes
their place: the three-valued result CMP pushes, and the conditions the six conditional jumps test on
the top of the stack by equality with -1, 0 and 1 (42_compare_jump.md R100, R108). -/

namespace Sys2Proof.Machine

/-- The result of CMP: -1, 0 or 1 as `a < b`, `a = b` or `a > b`, signed and exact (R100). -/
def compareResult (a b : Word) : Word :=
  if a.toInt < b.toInt then wrap64 (-1) else if a.toInt = b.toInt then wrap64 0 else wrap64 1

/-- JE is taken on exactly 0 (R102). -/
def takenE (top : Word) : Bool := top.toInt = 0

/-- JNE is taken on every value but 0 (R103). -/
def takenNE (top : Word) : Bool := top.toInt ≠ 0

/-- JL is taken on exactly -1 (R104). -/
def takenL (top : Word) : Bool := top.toInt = -1

/-- JLE is taken on exactly -1 and 0 (R105). -/
def takenLE (top : Word) : Bool := top.toInt = -1 ∨ top.toInt = 0

/-- JG is taken on exactly 1 (R106). -/
def takenG (top : Word) : Bool := top.toInt = 1

/-- JGE is taken on exactly 0 and 1 (R107). -/
def takenGE (top : Word) : Bool := top.toInt = 0 ∨ top.toInt = 1

/-- A conditional jump (R108): the top is read and kept; taken sets `ip` to the target, not taken
advances past the operand. The operand has been fetched on both paths before (R108 (3)). -/
def conditionalJump (taken : Word → Bool) (imm : Word) (s : State) : Host.Outcome State Fault Refusal :=
  withTop s (fun t _ => if taken t then s.goto (jumpTarget imm) else s.advanceOpi)

end Sys2Proof.Machine
end

