-- ==== Sys2Proof/Machine/CompareJump.lean ====
section
/-! DEFINITION. CMP, JMP and the six conditional jumps (42_compare_jump.md R100 to R108). -/

namespace Sys2Proof.Machine

/-- CMP (R100): `b = top`, `a = second`; both are removed and the result is pushed. -/
def execCmp (s : State) : Host.Outcome State Fault Refusal :=
  combineTopTwo (fun b a => compareResult a b) s

/-- JMP (R101): the stack is not examined. -/
def execJmp (imm : Word) (s : State) : Host.Outcome State Fault Refusal := .next (s.goto (jumpTarget imm))

/-- JE (R102). -/
def execJe (imm : Word) (s : State) : Host.Outcome State Fault Refusal := conditionalJump takenE imm s

/-- JNE (R103). -/
def execJne (imm : Word) (s : State) : Host.Outcome State Fault Refusal := conditionalJump takenNE imm s

/-- JL (R104). -/
def execJl (imm : Word) (s : State) : Host.Outcome State Fault Refusal := conditionalJump takenL imm s

/-- JLE (R105). -/
def execJle (imm : Word) (s : State) : Host.Outcome State Fault Refusal := conditionalJump takenLE imm s

/-- JG (R106). -/
def execJg (imm : Word) (s : State) : Host.Outcome State Fault Refusal := conditionalJump takenG imm s

/-- JGE (R107). -/
def execJge (imm : Word) (s : State) : Host.Outcome State Fault Refusal := conditionalJump takenGE imm s

end Sys2Proof.Machine
end

