-- ==== Sys2Proof/Machine/Output.lean ====
section
/-! DEFINITION. PRNT (45_output.md R160), the machine's only output. -/

namespace Sys2Proof.Machine

/-- PRNT (R160): the top is removed and emitted; on an empty stack the placeholder event is emitted
and execution goes on. It cannot fail. -/
def execPrnt (s : State) : Host.Outcome State Fault Refusal :=
  match s.stack with
  | [] => .next (s.emit .empty).advanceOp
  | v :: rest => .next ((s.withStack rest).emit (.val v)).advanceOp

end Sys2Proof.Machine
end

