-- ==== Sys2Proof/Machine/StackData.lean ====
section
/-! DEFINITION. NOP, PUSH, DUP and POP (41_stack_data.md R90 to R93). -/

namespace Sys2Proof.Machine

/-- NOP (R90). -/
def execNop (s : State) : Host.Outcome State Fault Refusal := .next s.advanceOp

/-- PUSH (R91): StackOverflow is the last check, and the operand is pushed unchanged. -/
def execPush (imm : Word) (s : State) : Host.Outcome State Fault Refusal :=
  .next (unlessFull s (s.push imm).advanceOpi)

/-- DUP (R92): the depth check, then StackOverflow. -/
def execDup (s : State) : Host.Outcome State Fault Refusal :=
  withTop s (fun t _ => unlessFull s (s.push t).advanceOp)

/-- POP (R93): the value has no effect on anything. -/
def execPop (s : State) : Host.Outcome State Fault Refusal :=
  withTop s (fun _ rest => (s.withStack rest).advanceOp)

end Sys2Proof.Machine
end

