-- ==== Sys2Proof/Machine/UnaryAlu.lean ====
section
/-! DEFINITION. The one-operand ALU instructions NOT, NEG, ROL, ROR, SHL, SHR, INC and DEC
(43_unary_alu.md R120 to R128). -/

namespace Sys2Proof.Machine

/-- `r[i] = 1 - w[i]` (R120). -/
def notResult (w : Word) : Word := ~~~w

/-- `wrap64(-top)` (R121). -/
def negResult (w : Word) : Word := wrap64 (-w.toInt)

/-- `r[i] = w[i-1]` for i from 1, and `r[0] = w[63]` (R122; 92 D6). -/
def rolResult (w : Word) : Word := w <<< 1 ||| w >>> 63

/-- `r[i] = w[i+1]` for i to 62, and `r[63] = w[0]` (R123; 92 D6). -/
def rorResult (w : Word) : Word := w >>> 1 ||| w <<< 63

/-- `wrap64(top * 2^d)` (R124). -/
def shlResult (imm w : Word) : Word := wrap64 (w.toInt * 2 ^ shiftDistance imm)

/-- `floor(top / 2^d)` (R125): the arithmetic shift, rounding toward minus infinity. -/
def shrResult (imm w : Word) : Word := wrap64 (w.toInt.fdiv (2 ^ shiftDistance imm))

/-- `wrap64(top + 1)` (R126). -/
def incResult (w : Word) : Word := wrap64 (w.toInt + 1)

/-- `wrap64(top - 1)` (R127). -/
def decResult (w : Word) : Word := wrap64 (w.toInt - 1)

/-- NOT (R120). -/
def execNot (s : State) : Host.Outcome State Fault Refusal := replaceTop notResult s

/-- NEG (R121). -/
def execNeg (s : State) : Host.Outcome State Fault Refusal := replaceTop negResult s

/-- ROL (R122). -/
def execRol (s : State) : Host.Outcome State Fault Refusal := replaceTop rolResult s

/-- ROR (R123). -/
def execRor (s : State) : Host.Outcome State Fault Refusal := replaceTop rorResult s

/-- SHL (R124). -/
def execShl (imm : Word) (s : State) : Host.Outcome State Fault Refusal := replaceTopOpi (shlResult imm) s

/-- SHR (R125). -/
def execShr (imm : Word) (s : State) : Host.Outcome State Fault Refusal := replaceTopOpi (shrResult imm) s

/-- INC (R126). -/
def execInc (s : State) : Host.Outcome State Fault Refusal := replaceTop incResult s

/-- DEC (R127). -/
def execDec (s : State) : Host.Outcome State Fault Refusal := replaceTop decResult s

end Sys2Proof.Machine
end

