-- ==== Sys2Proof/Machine/Dispatch.lean ====
section
/-! DEFINITION. Dispatch (40_dispatch_loop.md R77): one arm per instruction, in the table's order. -/

namespace Sys2Proof.Machine

/-- `execute(op, imm)` on a decoded instruction (R77). -/
def exec (i : Instr) (s : State) : Host.Outcome State Fault Refusal :=
  match i with
  | .nop => Sys2Proof.Machine.execNop s
  | .push imm => Sys2Proof.Machine.execPush imm s
  | .dup => Sys2Proof.Machine.execDup s
  | .pop => Sys2Proof.Machine.execPop s
  | .cmp => Sys2Proof.Machine.execCmp s
  | .jmp imm => Sys2Proof.Machine.execJmp imm s
  | .je imm => Sys2Proof.Machine.execJe imm s
  | .jne imm => Sys2Proof.Machine.execJne imm s
  | .jl imm => Sys2Proof.Machine.execJl imm s
  | .jle imm => Sys2Proof.Machine.execJle imm s
  | .jg imm => Sys2Proof.Machine.execJg imm s
  | .jge imm => Sys2Proof.Machine.execJge imm s
  | .not => Sys2Proof.Machine.execNot s
  | .neg => Sys2Proof.Machine.execNeg s
  | .rol => Sys2Proof.Machine.execRol s
  | .ror => Sys2Proof.Machine.execRor s
  | .shl imm => Sys2Proof.Machine.execShl imm s
  | .shr imm => Sys2Proof.Machine.execShr imm s
  | .inc => Sys2Proof.Machine.execInc s
  | .dec => Sys2Proof.Machine.execDec s
  | .and => Sys2Proof.Machine.execAnd s
  | .or => Sys2Proof.Machine.execOr s
  | .xor => Sys2Proof.Machine.execXor s
  | .add => Sys2Proof.Machine.execAdd s
  | .sub => Sys2Proof.Machine.execSub s
  | .mul => Sys2Proof.Machine.execMul s
  | .div => Sys2Proof.Machine.execDiv s
  | .prnt => Sys2Proof.Machine.execPrnt s

end Sys2Proof.Machine
end

