-- ==== Sys2Proof/Machine/Fetch.lean ====
section
/-! DEFINITION. Fetch, lookup and operand fetch (40_dispatch_loop.md R72, R73, R75), which come before
the stack is examined (60_exceptions.md R177), and the placing of one instruction where the next fetch
finds it. -/

namespace Sys2Proof.Machine

/-- What fetch and decode give. -/
inductive Fetched where
  /-- A whole instruction, its operand read. -/
  | instr (i : Instr)
  /-- The lookup or the operand fetch raises a fault (R73, R75). -/
  | raises (k : FaultKind)
  /-- The program read port was asked outside the buffer; not on Running states. -/
  | outside
  deriving DecidableEq, Repr

/-- The bytes the decoder is given: those at `ip`, as many as the longest instruction has (30 R52) or
the buffer still holds. A read has no side effect (20 R34), so reading past a 1-byte instruction is
not observable (log 8). -/
def State.fetchBytes (s : State) : List Byte := s.readBytes s.ip.toNat 9

/-- Fetch and decode at `ip` (R72 to R75): InvalidOpcode from the lookup, TruncatedOperand when fewer
than 8 bytes follow the opcode of an instruction with an operand, that is `ip + 9 > L`. -/
def State.fetch (s : State) : Fetched :=
  match decode s.fetchBytes with
  | .ok (i, _) => .instr i
  | .error .illegal => .raises .invalidOpcode
  | .error .truncated => .raises .truncatedOperand
  | .error .noByte => .outside

/-- Where `placeNext` puts an instruction: at `ip`, or at offset 0 when no legal buffer has nine bytes
at `ip` (log 7). -/
def State.placeAt (s : State) : Word := if s.ip.toNat + 9 ≤ Config.maxLen then s.ip else 0#64

/-- The state with nine bytes in the buffer where the next fetch reads, the status Running (log 7). -/
def State.placeNext (s : State) (bytes : List Byte) : State :=
  { s with
    ip := s.placeAt
    fault := none
    prog := s.prog.writeBytes s.placeAt.toNat bytes
    len := max s.len (s.placeAt.toNat + 9) }

end Sys2Proof.Machine
end

