-- ==== Sys2Proof/Machine/Step.lean ====
section
/-! DEFINITION. One step of the machine (40_dispatch_loop.md R72, R78). -/

namespace Sys2Proof.Machine

/-- One turn of the loop of R79. Running: fetch, decode and execute one instruction, or take the fault
that fetch raises (R72, R178). Halted or Faulted: no step is made and nothing changes (R78, log 5). -/
def step (s : State) : Host.Outcome State Fault Refusal :=
  match s.status with
  | .halted => .next s
  | .faulted => .next s
  | .running =>
    match s.fetch with
    | .instr i => exec i s
    | .raises k => .next (s.raise k)
    | .outside => .fault .outsideBuffer

/-- `s` with the instruction of a table word stored where the next step fetches it (log 7). -/
def State.withFetchWord (s : State) (nbits w : Nat) : State := s.placeNext (tableBytes nbits w)

end Sys2Proof.Machine
end

