-- ==== Sys2Proof/Machine/Run.lean ====
section
/-! DEFINITION. The run (40_dispatch_loop.md R79) under fuel, and the result port (R81). -/

namespace Sys2Proof.Machine

/-- What the result port gives at the end of a run (R79, R81; 90_conflicts.md C7). -/
inductive RunResult where
  /-- `Ok`: the machine is Halted. -/
  | ok
  /-- `Err(kind, at)`: the machine is Faulted. -/
  | err (r : FaultRecord)
  deriving DecidableEq, Repr

/-- `while fault = None and ip < L: step()`, for at most `fuel` steps; the fuel is the model's, not the
hardware's (R80). -/
def runFor : Nat → State → Host.Outcome State Fault Refusal
  | 0, s => .next s
  | fuel + 1, s =>
    match s.status with
    | .halted => .next s
    | .faulted => .next s
    | .running =>
      match step s with
      | .next t => runFor fuel t
      | .fault f => .fault f
      | .refused r => .refused r

/-- The result port: nothing while Running, then `Ok` or the fault record (R79). -/
def State.result (s : State) : Option RunResult :=
  match s.fault with
  | some r => some (.err r)
  | none => if s.ip.toNat < s.len then none else some .ok

end Sys2Proof.Machine
end

