-- ==== Sys2Proof/WellFormed.lean ====
section
/-! DEFINITION. What is legal to run: every instruction, since no operand value is reserved
(30_encoding.md R59), and the parameters that meet the bounds of 00_scope.md R4. -/

namespace Sys2Proof

/-- Well-formedness of an instruction (R59: "There is no encoding in which an operand field must be
zero, and no operand value is reserved"). It refuses nothing; it is written arm by arm so that a new
constructor has to be given its check. -/
def Instr.wellFormed : Instr → Bool
  | .nop | .dup | .pop | .cmp => true
  | .push _ => true
  | .jmp _ | .je _ | .jne _ | .jl _ | .jle _ | .jg _ | .jge _ => true
  | .not | .neg | .rol | .ror | .inc | .dec => true
  | .shl _ | .shr _ => true
  | .and | .or | .xor | .add | .sub | .mul | .div => true
  | .prnt => true

/-- `0 <= L <= 2^63 - 1` (R4, R202). -/
def Config.lenLegal (len : Nat) : Bool := len ≤ Config.maxLen

/-- STACK_DEPTH is a positive integer or unbounded (R4). -/
def Config.depthLegal : Option Nat → Bool
  | none => true
  | some d => 0 < d

/-- An ASCII decimal digit, 0x30 to 0x39. -/
def isDigitByte (b : Byte) : Bool := 0x30#8 ≤ b && b ≤ 0x39#8

/-- One or more digits without a leading zero, the value 0 being the single digit (R161). -/
def isDecimalDigits : List Byte → Bool
  | [] => false
  | [d] => isDigitByte d
  | d :: ds => isDigitByte d && d != 0x30#8 && ds.all isDigitByte

/-- The decimal spelling of an integer of any size, in the form of R161: digits, with `-` (0x2D)
before a value that is not 0. -/
def isDecimalSpelling : List Byte → Bool
  | [] => false
  | b :: bs => if b = 0x2D#8 then isDecimalDigits bs && bs != [0x30#8] else isDecimalDigits (b :: bs)

/-- PLACEHOLDER_TEXT is a non-empty string that is not the decimal spelling of an integer (R4). -/
def Config.placeholderLegal (text : List Byte) : Bool := text != [] && !isDecimalSpelling text

/-- The environment's duties about the parameters (R4, R202, R207). -/
def Params.wellFormed (p : Params) : Bool :=
  Config.lenLegal p.prog.length && Config.depthLegal p.stackDepth && Config.placeholderLegal p.placeholder

end Sys2Proof
end

