-- ==== Sys2Proof/Machine/Sink.lean ====
section
/-! DEFINITION. The output sink's contract (45_output.md R161; 92 D13): the line of text it writes for
each event. The sink is outside the block (00_scope.md R2) and no step reads what is defined here. -/

namespace Sys2Proof.Machine

/-- The last digits of `n` in base ten, at most `fuel` of them, most significant first, with no leading
zero and 0 as the single digit. Twenty are enough for 64 bits. -/
def digitsFuel : Nat → Nat → List Byte
  | 0, _ => []
  | fuel + 1, n =>
    (if n < 10 then [] else digitsFuel fuel (n / 10)) ++ [BitVec.ofNat 8 (0x30 + n % 10)]

/-- The decimal representation of a printed value: `-` (0x2D) before a negative one, then the digits of
its absolute value (R161). -/
def decimal (v : Word) : List Byte :=
  if v.toInt < 0 then 0x2D#8 :: digitsFuel 20 v.toInt.natAbs else digitsFuel 20 v.toInt.natAbs

/-- The line written for one event, ended by one line feed (0x0A) (R161); `placeholder` is
PLACEHOLDER_TEXT (00 R4). -/
def sinkLine (placeholder : List Byte) : Event → List Byte
  | .val v => decimal v ++ [0x0A#8]
  | .empty => placeholder ++ [0x0A#8]

/-- Everything the sink has written: one line per event, in order (R161, 10 R21). -/
def console (placeholder : List Byte) (out : List Event) : List Byte :=
  out.flatMap (sinkLine placeholder)

end Sys2Proof.Machine
end

