-- ==== Sys2Proof/Safety.lean ====
section
/-! DEFINITION. The terms in which statements are made: the invariant of a machine that was constructed
with legal parameters (70_reset_and_hazards.md R208), the checks of one step in the spec's order
(40_dispatch_loop.md R72, 60_exceptions.md R177), and the reading of a result modulo 2^64. -/

namespace Sys2Proof.Machine

/-- What holds of every state between steps of a machine constructed with legal parameters. -/
structure Inv (s : State) : Prop where
  /-- The buffer's listing has its canonical form (log 2). -/
  progWf : s.prog.wf = true
  /-- It lists nothing at or after `L`. -/
  progBelow : s.prog.below s.len = true
  /-- `L <= 2^63 - 1` (R4). -/
  lenLegal : s.len ≤ Config.maxLen
  /-- STACK_DEPTH is positive or unbounded (R4). -/
  depthLegal : ∀ d, s.stackDepth = some d → 0 < d
  /-- The depth never exceeds STACK_DEPTH (R208 (2)). -/
  depthBound : ∀ d, s.stackDepth = some d → s.stack.length ≤ d
  /-- `fault.at` equals `ip` when there is a fault (R19), and it is an offset of the buffer, a fault
  being raised only from a Running state (90_conflicts.md C4). -/
  faultAt : ∀ r, s.fault = some r → r.atIp = s.ip ∧ s.ip.toNat < s.len

/-- The first check of R72 that fails for the opcode byte `op` at `ip`, in the order of R177. -/
def firstFault (op : Byte) (s : State) : Option FaultKind :=
  if op.toNat > 27 then some .invalidOpcode
  else if opcodeHasOperand op = true ∧ s.ip.toNat + 9 > s.len then some .truncatedOperand
  else if s.stack.length < opcodeNeed op then some .emptyStack
  else if op = 0x1A#8 ∧ s.stack.head? = some 0#64 then some .divisionByZero
  else if opcodeGrows op = true ∧ s.full = true then some .stackOverflow
  else none

/-- Instruction `i` ends with fault kind `k` recorded at `ip` and nothing else changed: the single
element of a two-operand instruction stays, nothing is pushed, nothing is emitted (R6, R7, R74). -/
def RaisesFault (i : Instr) (s : State) (k : FaultKind) : Prop :=
  exec i s = .next { s with fault := some ⟨k, s.ip⟩ }

/-- `r` is `wrap64(z)` (R5): its signed reading, which lies in `MIN .. MAX`, is congruent to z modulo
2^64. At most one word is. -/
def IsWrap64 (r : Word) (z : Int) : Prop := (2 : Int) ^ 64 ∣ (r.toInt - z)

/-- The number a string of ASCII digits spells. -/
def digitsValue (ds : List Byte) : Nat := ds.foldl (fun acc d => 10 * acc + (d.toNat - 0x30)) 0

end Sys2Proof.Machine
end

