-- ==== Sys2Proof/Certificates/Slice0/Obligations.lean ====
section
/-! DEFINITION. The statements about this model, for the provers. A stack pattern `x :: y :: rest` is
top first: `x = top`, `y = second` (00_scope.md R8). -/

open Sys2Proof Sys2Proof.Machine

/-! ### Encoding and decoding -/

/-- 30 R50, R53, R54: decoding the encoding of any instruction, whatever bytes follow, gives it back. -/
def Obligations.DecodeInvertsEncode : Prop :=
  ∀ (i : Instr) (rest : List Byte), i.wellFormed = true → decode (encode i ++ rest) = .ok (i, rest)

/-- 30 R50, R54: whatever decodes is the encoding of what it decodes to, so no byte or bit is dropped. -/
def Obligations.EncodeInvertsDecode : Prop :=
  ∀ (bs : List Byte) (i : Instr) (rest : List Byte),
    decode bs = .ok (i, rest) → bs = encode i ++ rest ∧ i.wellFormed = true

/-- 30 R50, R54 on bytes written out from the spec: NOP, PUSH 43, JMP 53, SHL 4, SUB, PRNT. -/
def Obligations.WrittenOutBytesDecode : Prop :=
  decode [0x00#8] = .ok (.nop, []) ∧
  decode [0x01#8, 0x2B#8, 0#8, 0#8, 0#8, 0#8, 0#8, 0#8, 0#8] = .ok (.push 43#64, []) ∧
  decode [0x05#8, 0x35#8, 0#8, 0#8, 0#8, 0#8, 0#8, 0#8, 0#8] = .ok (.jmp 53#64, []) ∧
  decode [0x10#8, 0x04#8, 0#8, 0#8, 0#8, 0#8, 0#8, 0#8, 0#8] = .ok (.shl 4#64, []) ∧
  decode [0x18#8] = .ok (.sub, []) ∧
  decode [0x1B#8] = .ok (.prnt, [])

/-- 30 R56, 60 R172: the illegal bytes are exactly 28 to 255, whatever follows them, and a Running
machine whose byte at `ip` is one of them records InvalidOpcode at `ip`, whatever the stack holds. -/
def Obligations.BytesFrom28AreIllegal : Prop :=
  (∀ (op : Byte) (rest : List Byte), decode (op :: rest) = .error .illegal ↔ 28 ≤ op.toNat) ∧
  (∀ (s : State) (op : Byte), s.status = .running → s.memRead1 s.ip.toNat = .ok op → 28 ≤ op.toNat →
    ∃ t, step s = .next t ∧ t.fault = some ⟨.invalidOpcode, s.ip⟩)

/-- 30 R52: the length is fixed by the opcode byte: 9 for the ten opcodes with an operand, else 1; no
length is defined for a byte from 28 on, and nothing after it is read. -/
def Obligations.OpcodeByteFixesLength : Prop :=
  ∀ (op : Byte) (rest : List Byte),
    (∀ i rest', decode (op :: rest) = .ok (i, rest') →
      (op.toNat ∈ [1, 5, 6, 7, 8, 9, 10, 11, 16, 17] → rest.length = rest'.length + 8 ∧ i.operand.isSome = true) ∧
      (op.toNat ∉ [1, 5, 6, 7, 8, 9, 10, 11, 16, 17] → rest' = rest ∧ i.operand = none)) ∧
    (28 ≤ op.toNat → ∀ other, decode (op :: rest) = decode (op :: other) ∧ ¬ ∃ p, decode (op :: rest) = .ok p)

/-- 20 R31: an 8-byte read inside the buffer is the little-endian word of its bytes, bit field by bit
field and as a sum. -/
def Obligations.EightByteReadIsLittleEndian : Prop :=
  ∀ (s : State) (a : Nat), a + 8 ≤ s.len →
    ∃ w, s.memRead8 a = .ok w ∧
      (∀ k, k < 8 → s.memRead1 (a + k) = .ok (w.extractLsb' (8 * k) 8)) ∧
      w.toNat = ∑ k ∈ Finset.range 8, 2 ^ (8 * k) * (s.prog.read (a + k)).toNat

/-- 20 R35: a read answers exactly when it is inside the buffer. That a read outside it answers the
host's fault `outsideBuffer` is the model's form of "no read is made" (log 3). -/
def Obligations.ReadsAnswerInsideTheBufferOnly : Prop :=
  ∀ (s : State) (a : Nat),
    (a + 1 ≤ s.len → ∃ b, s.memRead1 a = .ok b) ∧
    (s.len < a + 1 → s.memRead1 a = .error .outsideBuffer) ∧
    (a + 8 ≤ s.len → ∃ w, s.memRead8 a = .ok w) ∧
    (s.len < a + 8 → s.memRead8 a = .error .outsideBuffer)

/-- 30 R53, 40 R75: for the ten opcodes with an operand, the operand is the 8 bytes at `ip + 1` when
`ip + 9 <= L`; when `ip + 9 > L` the step records TruncatedOperand at `ip`, whatever the stack holds.
"Whatever the stack holds" rests on the spec's own decisions: TruncatedOperand comes before EmptyStack
(92 D9, log 12) and a jump that would not be taken fetches its operand too (92 D8, log 11). -/
def Obligations.OperandIsFetchedOrTruncated : Prop :=
  ∀ (s : State) (op : Byte), s.status = .running → s.memRead1 s.ip.toNat = .ok op →
    op.toNat ∈ [1, 5, 6, 7, 8, 9, 10, 11, 16, 17] →
      (s.ip.toNat + 9 ≤ s.len →
        ∃ i w, i.opcode = op ∧ i.operand = some w ∧ s.memRead8 (s.ip.toNat + 1) = .ok w ∧ step s = exec i s) ∧
      (s.len < s.ip.toNat + 9 → ∃ t, step s = .next t ∧ t.fault = some ⟨.truncatedOperand, s.ip⟩)

/-! ### The step and the run -/

/-- 40 R72: on a Running state whose fetched bytes decode, the step is `exec` of the instruction; the
step adds nothing around it, `ip` being written by the instruction (40 R76). -/
def Obligations.StepRunsTheDecodedInstruction : Prop :=
  ∀ (s : State) (i : Instr) (rest : List Byte),
    s.status = .running → decode s.fetchBytes = .ok (i, rest) → step s = exec i s

/-- 40 R72, 30 R60: if the bytes of the buffer at `ip` are the encoding of `i`, the step is `exec i`,
whatever else those bytes may be part of. -/
def Obligations.StepRunsTheInstructionEncodedAtIp : Prop :=
  ∀ (s : State) (i : Instr), s.fault = none →
    (∀ k, (h : k < (encode i).length) → s.memRead1 (s.ip.toNat + k) = .ok ((encode i)[k])) →
    step s = exec i s

/-- The model's own placing of one instruction (log 7), in a buffer whose listing is canonical (log 2):
the next step runs exactly the instruction of the table word, and the stack, `out` and STACK_DEPTH are
as they were. -/
def Obligations.FetchWordRunsNext : Prop :=
  ∀ (s : State) (nbits w : Nat) (i : Instr), s.prog.wf = true → decodeTableWord nbits w = some i →
    step (s.withFetchWord nbits w) = exec i (s.withFetchWord nbits w) ∧
    (s.withFetchWord nbits w).stack = s.stack ∧ (s.withFetchWord nbits w).out = s.out ∧
    (s.withFetchWord nbits w).stackDepth = s.stackDepth

/-- 10 R20: the status as a function of `fault`, `ip` and `L`. -/
def Obligations.StatusIsAFunctionOfFaultAndIp : Prop :=
  ∀ s : State,
    (s.fault ≠ none → s.status = .faulted) ∧
    (s.fault = none → s.ip.toNat < s.len → s.status = .running) ∧
    (s.fault = none → s.len ≤ s.ip.toNat → s.status = .halted)

/-- 40 R78, 70 R204: a Halted or Faulted machine never changes again. That "makes no step" is a next
state equal to the state is the model's choice (log 5). -/
def Obligations.NothingMovesOutsideRunning : Prop :=
  ∀ (s : State) (k : Nat), s.status ≠ .running → Host.Core.run core k s = .next s

/-- The step is total, and no state stops the model. On Running states this is 40 R82 (derived there).
On Halted and Faulted states the spec makes no step (40 R78), and that `step` answers next there is the
model's choice (log 5). -/
def Obligations.StepAlwaysAnswersNext : Prop := ∀ s : State, ∃ t, step s = .next t

/-- 40 R72, 60 R177 (92 D9): the fault a step records is that of the first failing check in the spec's
order; where no check fails the step records none. -/
def Obligations.FirstFailingCheckIsTheFault : Prop :=
  ∀ (s : State) (op : Byte), s.status = .running → s.memRead1 s.ip.toNat = .ok op →
    ∃ t, step s = .next t ∧ t.fault = (firstFault op s).map (fun k => ⟨k, s.ip⟩)

/-- 60 R178, 70 R208 (7) (92 D10): a step that records a fault changes nothing but `fault`. -/
def Obligations.FaultsArePrecise : Prop :=
  ∀ (s t : State) (r : FaultRecord), s.fault = none → step s = .next t → t.fault = some r →
    r.atIp = s.ip ∧ t = { s with fault := some r }

/-- 40 R76, 10 R17 (derived there; 92 D2): a step that records no fault moves `ip` by 1 for an opcode
without an operand, by 9 or to its operand for one with an operand, to the operand only for a jump and
always for JMP; the advances do not wrap and end at most at `L`. -/
def Obligations.NextIpIsOneOfThree : Prop :=
  ∀ (s t : State) (op : Byte), Inv s → s.status = .running → s.memRead1 s.ip.toNat = .ok op →
    step s = .next t → t.fault = none →
      (opcodeHasOperand op = false → t.ip.toNat = s.ip.toNat + 1 ∧ t.ip.toNat ≤ s.len) ∧
      (opcodeHasOperand op = true →
        (op.toNat ≠ 5 ∧ t.ip.toNat = s.ip.toNat + 9 ∧ t.ip.toNat ≤ s.len) ∨
        (5 ≤ op.toNat ∧ op.toNat ≤ 11 ∧ s.memRead8 (s.ip.toNat + 1) = .ok t.ip))

/-- 10 R15 (derived there): the depth an instruction needs and leaves when it succeeds. -/
def Obligations.DepthFollowsTheStackEffectTable : Prop :=
  ∀ (i : Instr) (s t : State), s.fault = none → exec i s = .next t → t.fault = none →
    opcodeNeed i.opcode ≤ s.stack.length ∧ t.stack.length = depthAfter i s.stack.length

/-- 10 R13: no instruction reads or writes a cell below the top two: with other values in those cells
it does the same and leaves them as they are. -/
def Obligations.OnlyTheTopTwoCellsAreReached : Prop :=
  ∀ (i : Instr) (s : State) (topTwo deep deep' : List Word), topTwo.length = 2 → deep.length = deep'.length →
    ∃ (t : State) (newTop : List Word),
      exec i { s with stack := topTwo ++ deep } = .next { t with stack := newTop ++ deep } ∧
      exec i { s with stack := topTwo ++ deep' } = .next { t with stack := newTop ++ deep' }

/-- 20 R36, 10 R22, 70 R208 (5) (derived there): no step changes the buffer, its length or
STACK_DEPTH; every offset reads as before. -/
def Obligations.BufferAndParametersNeverChange : Prop :=
  ∀ (s t : State), step s = .next t →
    (∀ a, t.memRead1 a = s.memRead1 a) ∧ t.prog = s.prog ∧ t.len = s.len ∧ t.stackDepth = s.stackDepth

/-- 10 R21, 70 R208 (4) (derived there): a step leaves `out` alone or, with PRNT at `ip` only, appends
one event. -/
def Obligations.OutputGrowsOnlyByPrnt : Prop :=
  ∀ (s t : State), step s = .next t →
    t.out = s.out ∨ (s.memRead1 s.ip.toNat = .ok 0x1B#8 ∧ ∃ e, t.out = s.out ++ [e])

/-- 70 R208, 10 R19 (derived there): every step keeps the invariant, from every state that meets it. -/
def Obligations.StepKeepsInv : Prop := ∀ (s t : State), Inv s → step s = .next t → Inv t

/-- The reset state meets the invariant. -/
def Obligations.ResetMeetsInv : Prop := Inv State.reset

/-- 70 R200, R202, R208: a machine constructed with legal parameters meets the invariant, and so does
every state a run of it reaches, with the same length and STACK_DEPTH. -/
def Obligations.RunsOfLegalMachinesMeetInv : Prop :=
  ∀ (p : Params) (fuel : Nat) (t : State), p.wellFormed = true →
    runFor fuel (State.construct p) = .next t →
      Inv t ∧ t.len = p.prog.length ∧ t.stackDepth = p.stackDepth

/-- 40 R79: the loop that tests the status before each step, and the host's repetition of `step`, agree
(they differ in form only because of log 5). -/
def Obligations.RunIsRepeatedStep : Prop :=
  ∀ (fuel : Nat) (s : State), runFor fuel s = Host.Core.run core fuel s

/-- 40 R79, 60 R178, 10 R20: the result port gives `Ok` exactly when Halted and the fault record exactly
when Faulted. -/
def Obligations.ResultPortFollowsStatus : Prop :=
  ∀ s : State,
    (s.result = none ↔ s.status = .running) ∧ (s.result = some .ok ↔ s.status = .halted) ∧
    (∀ r, s.result = some (.err r) ↔ s.fault = some r)

/-- 10 R24, 70 R201 (92 D16 for `fault` and `out`): what construction leaves; `L = 0` is Halted at once. -/
def Obligations.ConstructionLeavesResetValues : Prop :=
  ∀ p : Params,
    (State.construct p).ip = 0#64 ∧ (State.construct p).stack = [] ∧ (State.construct p).fault = none ∧
    (State.construct p).out = [] ∧ (State.construct p).len = p.prog.length ∧
    ((State.construct p).status = .running ↔ p.prog ≠ []) ∧ ((State.construct p).status = .halted ↔ p.prog = [])

/-- 10 R22, 20 R30: the constructed machine reads at every offset the byte presented there, and nothing
elsewhere. -/
def Obligations.PresentedBufferIsRead : Prop :=
  ∀ (p : Params) (a : Nat) (b : Byte), (State.construct p).memRead1 a = .ok b ↔ p.prog[a]? = some b

/-! ### Faults of the stack and of DIV -/

/-- 40 R74: EmptyStack exactly when the depth is less than the instruction needs, and then nothing is
pushed or removed, also for two operands with one element present. -/
def Obligations.EmptyStackExactlyWhenTooShallow : Prop :=
  ∀ (i : Instr) (s : State),
    (s.stack.length < opcodeNeed i.opcode → RaisesFault i s .emptyStack) ∧
    (opcodeNeed i.opcode ≤ s.stack.length → s.fault = none →
      ∀ t r, exec i s = .next t → t.fault = some r → r.kind ≠ .emptyStack)

/-- 60 R175: DivisionByZero exactly for DIV at depth at least 2 with a zero on top. (That the operands
and `ip` stay is 92 D10 and stands in FaultsArePrecise.) -/
def Obligations.DivisionByZeroExactlyForDiv : Prop :=
  (∀ (s : State) (y : Word) (rest : List Word), s.stack = 0#64 :: y :: rest →
    ∃ t, exec .div s = .next t ∧ t.fault = some ⟨.divisionByZero, s.ip⟩) ∧
  (∀ (i : Instr) (s t : State) (r : FaultRecord), s.fault = none → exec i s = .next t → t.fault = some r →
    r.kind = .divisionByZero → i = .div ∧ ∃ y rest, s.stack = 0#64 :: y :: rest)

/-- 60 R176 (92 D12): StackOverflow exactly for PUSH, and DUP on a stack with a top, when one more cell
exceeds a finite STACK_DEPTH. -/
def Obligations.StackOverflowExactlyForPushAndDup : Prop :=
  (∀ (s : State) (d : Nat) (v : Word), s.stackDepth = some d → d < s.stack.length + 1 →
    RaisesFault (.push v) s .stackOverflow ∧ (s.stack ≠ [] → RaisesFault .dup s .stackOverflow)) ∧
  (∀ (i : Instr) (s t : State) (r : FaultRecord), s.fault = none → exec i s = .next t → t.fault = some r →
    r.kind = .stackOverflow →
      ((∃ v, i = .push v) ∨ i = .dup) ∧ ∃ d, s.stackDepth = some d ∧ d < s.stack.length + 1)

/-! ### NOP and stack data -/

/-- 41 R90: NOP moves `ip` by 1 and changes nothing else, at any depth; it cannot fail. -/
def Obligations.NopOnlyAdvances : Prop :=
  encode .nop = [0x00#8] ∧ ∀ s : State, exec .nop s = .next { s with ip := s.ip + 1#64 }

/-- 41 R91 (92 D12 for the room): with room for one more cell, PUSH pushes its operand unchanged. -/
def Obligations.PushAddsItsOperand : Prop :=
  ∀ (s : State) (v : Word), (∀ d, s.stackDepth = some d → s.stack.length + 1 ≤ d) →
    exec (.push v) s = .next { s with stack := v :: s.stack, ip := s.ip + 9#64 }

/-- 41 R92 (92 D12 for the room): with a top and room for one more cell, DUP pushes a copy of the top. -/
def Obligations.DupCopiesTheTop : Prop :=
  ∀ (s : State) (x : Word) (rest : List Word), s.stack = x :: rest →
    (∀ d, s.stackDepth = some d → s.stack.length + 1 ≤ d) →
    exec .dup s = .next { s with stack := x :: x :: rest, ip := s.ip + 1#64 }

/-- 41 R93: POP discards the top; EmptyStack when there is none. -/
def Obligations.PopDiscardsTheTop : Prop :=
  encode .pop = [0x03#8] ∧
  (∀ (s : State) (x : Word) (rest : List Word), s.stack = x :: rest →
    exec .pop s = .next { s with stack := rest, ip := s.ip + 1#64 }) ∧
  (∀ s : State, s.stack = [] → RaisesFault .pop s .emptyStack)

/-! ### CMP and the jumps -/

/-- 42 R100: CMP removes `b = top` and `a = second` and pushes -1, 0 or 1 by the exact signed
comparison of a with b; EmptyStack at depth 0 or 1, the single element staying. -/
def Obligations.CmpPushesTheSignedOrder : Prop :=
  encode .cmp = [0x04#8] ∧
  (∀ (s : State) (a b : Word) (rest : List Word), s.stack = b :: a :: rest →
    ∃ r : Word, exec .cmp s = .next { s with stack := r :: rest, ip := s.ip + 1#64 } ∧
      (a.toInt < b.toInt → r.toInt = -1) ∧ (a = b → r.toInt = 0) ∧ (b.toInt < a.toInt → r.toInt = 1)) ∧
  (∀ s : State, s.stack.length < 2 → RaisesFault .cmp s .emptyStack)

/-- 95 T2, quoted in 42 R100: swapping the operands of CMP negates its result. -/
def Obligations.CmpIsAntiSymmetric : Prop :=
  ∀ (s t t' : State) (a b r r' : Word) (rest : List Word),
    exec .cmp { s with stack := b :: a :: rest } = .next t →
    exec .cmp { s with stack := a :: b :: rest } = .next t' →
    t.stack = r :: rest → t'.stack = r' :: rest → r'.toInt = -r.toInt

/-- 42 R101, R108 (92 D2): JMP sets `ip` to the operand's 64 bits read as unsigned, whatever they are;
the stack is not examined. -/
def Obligations.JmpGoesToItsOperand : Prop :=
  ∀ (s : State) (a : Word), exec (.jmp a) s = .next { s with ip := a }

/-- 42 R102, R103, R108 (92 D7, D2): JE is taken on exactly 0, JNE on all else; the top stays. -/
def Obligations.JeAndJneTestForZero : Prop :=
  ∀ (s : State) (a x : Word) (rest : List Word), s.stack = x :: rest →
    exec (.je a) s = .next { s with ip := if x.toInt = 0 then a else s.ip + 9#64 } ∧
    exec (.jne a) s = .next { s with ip := if x.toInt = 0 then s.ip + 9#64 else a }

/-- 42 R104, R105, R108 (92 D7, D2): JL is taken on exactly -1, JLE on exactly -1 and 0; the top stays. -/
def Obligations.JlAndJleTestForMinusOne : Prop :=
  ∀ (s : State) (a x : Word) (rest : List Word), s.stack = x :: rest →
    exec (.jl a) s = .next { s with ip := if x.toInt = -1 then a else s.ip + 9#64 } ∧
    exec (.jle a) s = .next { s with ip := if x.toInt = -1 ∨ x.toInt = 0 then a else s.ip + 9#64 }

/-- 42 R106, R107, R108 (92 D7, D2): JG is taken on exactly 1, JGE on exactly 0 and 1; the top stays. -/
def Obligations.JgAndJgeTestForOne : Prop :=
  ∀ (s : State) (a x : Word) (rest : List Word), s.stack = x :: rest →
    exec (.jg a) s = .next { s with ip := if x.toInt = 1 then a else s.ip + 9#64 } ∧
    exec (.jge a) s = .next { s with ip := if x.toInt = 0 ∨ x.toInt = 1 then a else s.ip + 9#64 }

/-! ### One-operand ALU -/

/-- 43 R120: NOT complements every bit of the top, which is `-top - 1`; EmptyStack when there is none. -/
def Obligations.NotComplementsEveryBit : Prop :=
  encode .not = [0x0C#8] ∧
  (∀ (s : State) (x : Word) (rest : List Word), s.stack = x :: rest →
    ∃ r : Word, exec .not s = .next { s with stack := r :: rest, ip := s.ip + 1#64 } ∧
      (∀ i, i < 64 → r.getLsbD i = !x.getLsbD i) ∧ r.toInt = -x.toInt - 1) ∧
  (∀ s : State, s.stack = [] → RaisesFault .not s .emptyStack)

/-- 43 R121 (92 D3): NEG replaces the top by `wrap64(-top)`; MIN stays MIN. -/
def Obligations.NegWraps : Prop :=
  ∀ (s : State) (x : Word) (rest : List Word), s.stack = x :: rest →
    ∃ r : Word, exec .neg s = .next { s with stack := r :: rest, ip := s.ip + 1#64 } ∧
      IsWrap64 r (-x.toInt) ∧ (x = minWord → r = minWord)

/-- 43 R122 (92 D6): ROL rotates the 64-bit top left by one. -/
def Obligations.RolRotatesLeftByOne : Prop :=
  ∀ (s : State) (x : Word) (rest : List Word), s.stack = x :: rest →
    ∃ r : Word, exec .rol s = .next { s with stack := r :: rest, ip := s.ip + 1#64 } ∧
      (∀ i, 1 ≤ i → i < 64 → r.getLsbD i = x.getLsbD (i - 1)) ∧ r.getLsbD 0 = x.getLsbD 63 ∧
      r.toNat = (2 * x.toNat) % 2 ^ 64 + x.toNat / 2 ^ 63

/-- 43 R123 (92 D6): ROR rotates the 64-bit top right by one; the sign bit is not replicated. -/
def Obligations.RorRotatesRightByOne : Prop :=
  ∀ (s : State) (x : Word) (rest : List Word), s.stack = x :: rest →
    ∃ r : Word, exec .ror s = .next { s with stack := r :: rest, ip := s.ip + 1#64 } ∧
      (∀ i, i < 63 → r.getLsbD i = x.getLsbD (i + 1)) ∧ r.getLsbD 63 = x.getLsbD 0 ∧
      r.toNat = x.toNat / 2 + x.toNat % 2 * 2 ^ 63

/-- 43 R124, R128 (92 D5, D3): SHL replaces the top by `wrap64(top * 2^d)`, `d` the operand modulo 64. -/
def Obligations.ShlMultipliesByAPowerOfTwo : Prop :=
  ∀ (s : State) (imm x : Word) (rest : List Word), s.stack = x :: rest →
    ∃ r : Word, exec (.shl imm) s = .next { s with stack := r :: rest, ip := s.ip + 9#64 } ∧
      IsWrap64 r (x.toInt * 2 ^ (imm.toInt % 64).toNat)

/-- 43 R125, R128 (92 D5): SHR replaces the top by `floor(top / 2^d)`, `d` the operand modulo 64; the
result is exact, with no wrap. -/
def Obligations.ShrFloorsByAPowerOfTwo : Prop :=
  ∀ (s : State) (imm x : Word) (rest : List Word), s.stack = x :: rest →
    ∃ r : Word, exec (.shr imm) s = .next { s with stack := r :: rest, ip := s.ip + 9#64 } ∧
      r.toInt = x.toInt / 2 ^ (imm.toInt % 64).toNat

/-- 43 R126, R127 (92 D3): INC and DEC replace the top by `wrap64(top + 1)` and `wrap64(top - 1)`. -/
def Obligations.IncAndDecWrap : Prop :=
  ∀ (s : State) (x : Word) (rest : List Word), s.stack = x :: rest →
    (∃ r : Word, exec .inc s = .next { s with stack := r :: rest, ip := s.ip + 1#64 } ∧ IsWrap64 r (x.toInt + 1)) ∧
    (∃ r : Word, exec .dec s = .next { s with stack := r :: rest, ip := s.ip + 1#64 } ∧ IsWrap64 r (x.toInt - 1))

/-! ### Two-operand ALU -/

/-- 44 R140, R141, R142: AND, OR and XOR combine `x = top` and `y = second` bit by bit; EmptyStack at
depth 0 or 1. -/
def Obligations.AndOrXorWorkBitByBit : Prop :=
  encode .and = [0x14#8] ∧ encode .or = [0x15#8] ∧ encode .xor = [0x16#8] ∧
  (∀ (s : State) (x y : Word) (rest : List Word), s.stack = x :: y :: rest →
    (∃ r : Word, exec .and s = .next { s with stack := r :: rest, ip := s.ip + 1#64 } ∧
      ∀ i, i < 64 → r.getLsbD i = (x.getLsbD i && y.getLsbD i)) ∧
    (∃ r : Word, exec .or s = .next { s with stack := r :: rest, ip := s.ip + 1#64 } ∧
      ∀ i, i < 64 → r.getLsbD i = (x.getLsbD i || y.getLsbD i)) ∧
    (∃ r : Word, exec .xor s = .next { s with stack := r :: rest, ip := s.ip + 1#64 } ∧
      ∀ i, i < 64 → r.getLsbD i = (x.getLsbD i ^^ y.getLsbD i))) ∧
  (∀ s : State, s.stack.length < 2 →
    RaisesFault .and s .emptyStack ∧ RaisesFault .or s .emptyStack ∧ RaisesFault .xor s .emptyStack)

/-- 44 R143, R147 (92 D3): ADD pushes `wrap64(x + y)`. -/
def Obligations.AddPushesTheWrappedSum : Prop :=
  ∀ (s : State) (x y : Word) (rest : List Word), s.stack = x :: y :: rest →
    ∃ r : Word, exec .add s = .next { s with stack := r :: rest, ip := s.ip + 1#64 } ∧
      IsWrap64 r (x.toInt + y.toInt)

/-- 44 R144, R147, R148 (92 D3): SUB pushes `wrap64(y - x)`, first-pushed minus second-pushed. -/
def Obligations.SubPushesFirstMinusSecond : Prop :=
  ∀ (s : State) (x y : Word) (rest : List Word), s.stack = x :: y :: rest →
    ∃ r : Word, exec .sub s = .next { s with stack := r :: rest, ip := s.ip + 1#64 } ∧
      IsWrap64 r (y.toInt - x.toInt)

/-- 44 R145, R147 (92 D3): MUL pushes `wrap64(x * y)`, the low 64 bits of the product. -/
def Obligations.MulPushesTheLowProduct : Prop :=
  ∀ (s : State) (x y : Word) (rest : List Word), s.stack = x :: y :: rest →
    ∃ r : Word, exec .mul s = .next { s with stack := r :: rest, ip := s.ip + 1#64 } ∧
      IsWrap64 r (x.toInt * y.toInt)

/-- 44 R146, R148 (92 D4 for MIN / -1): with a divisor that is not 0, DIV pushes the quotient of
first-pushed by second-pushed truncated toward zero; only MIN / -1 does not fit, and it gives MIN. -/
def Obligations.DivPushesTheTruncatedQuotient : Prop :=
  ∀ (s : State) (x y : Word) (rest : List Word), s.stack = x :: y :: rest → x.toInt ≠ 0 →
    ∃ r : Word, exec .div s = .next { s with stack := r :: rest, ip := s.ip + 1#64 } ∧
      (¬ (y = minWord ∧ x.toInt = -1) → r.toInt = y.toInt.tdiv x.toInt) ∧
      (y = minWord ∧ x.toInt = -1 → r = minWord)

/-- 44 R147 (92 D3 to D6): the results, computed exactly and then wrapped, are those of a 64-bit
datapath: `x` the top, `y` the second, `w` the one operand. -/
def Obligations.AluIsTheSixtyFourBitDatapath : Prop :=
  (∀ x y : Word, addResult x y = y + x ∧ subResult x y = y - x ∧ mulResult x y = y * x ∧
    (x ≠ 0#64 → divResult x y = y.sdiv x)) ∧
  (∀ w imm : Word, negResult w = -w ∧ incResult w = w + 1#64 ∧ decResult w = w - 1#64 ∧
    shlResult imm w = w <<< (imm.toNat % 64) ∧ shrResult imm w = w.sshiftRight (imm.toNat % 64) ∧
    rolResult w = w.rotateLeft 1 ∧ rorResult w = w.rotateRight 1)

/-! ### Output -/

/-- 45 R160: PRNT removes the top and emits it; on an empty stack it emits the placeholder event; it
goes on at `ip + 1` and cannot fail. -/
def Obligations.PrntEmitsTheTopOrThePlaceholder : Prop :=
  encode .prnt = [0x1B#8] ∧
  (∀ (s : State) (x : Word) (rest : List Word), s.stack = x :: rest →
    exec .prnt s = .next { s with stack := rest, out := s.out ++ [.val x], ip := s.ip + 1#64 }) ∧
  (∀ s : State, s.stack = [] → exec .prnt s = .next { s with out := s.out ++ [.empty], ip := s.ip + 1#64 })

/-- 45 R161 (92 D13): the line of a value is `-` before a negative one, the digits of its absolute value
in base ten without a leading zero, and one line feed. -/
def Obligations.PrintedLineIsTheDecimalOfTheValue : Prop :=
  ∀ (text : List Byte) (v : Word),
    ∃ ds : List Byte, sinkLine text (.val v) = (if v.toInt < 0 then [0x2D#8] else []) ++ ds ++ [0x0A#8] ∧
      isDecimalDigits ds = true ∧ digitsValue ds = v.toInt.natAbs

/-- 00 R4, 45 R161 (92 D13): with a legal PLACEHOLDER_TEXT the placeholder's line is the line of no
value, so a console line tells the two events apart. -/
def Obligations.PlaceholderLineIsNoValueLine : Prop :=
  ∀ (text : List Byte) (v : Word), Config.placeholderLegal text = true →
    sinkLine text .empty ≠ sinkLine text (.val v)
end

