-- ==== Sys2Proof/Laws/Decode.lean ====
section
/-! SUPPORT. The decoder's operand reading, said once. -/

namespace Sys2Proof

/-- `takeWord` succeeds exactly on eight bytes or more. -/
theorem takeWord_eq_none_iff (bs : List Byte) : takeWord bs = none ↔ bs.length < 8 := by
  unfold takeWord
  split
  · simp
  · rename_i h
    simp only [true_iff]
    match bs, h with
    | [], _ | [_], _ | [_, _], _ | [_, _, _], _ | [_, _, _, _], _ | [_, _, _, _, _], _ => simp
    | [_, _, _, _, _, _], _ | [_, _, _, _, _, _, _], _ => simp
    | b0 :: b1 :: b2 :: b3 :: b4 :: b5 :: b6 :: b7 :: rest, h => exact absurd rfl (h b0 b1 b2 b3 b4 b5 b6 b7 rest)

/-- `takeWord` reads exactly a word's eight bytes, in the order of R31. -/
theorem takeWord_eq_some_iff (bs rest : List Byte) (w : Word) :
    takeWord bs = some (w, rest) ↔ bs = wordBytes w ++ rest := by
  constructor
  · intro h
    unfold takeWord at h
    split at h
    · simp only [Option.some.injEq, Prod.mk.injEq] at h
      obtain ⟨rfl, rfl⟩ := h
      simp only [wordBytes, wordByte, leWord, List.cons_append, List.nil_append, List.cons.injEq, and_true]
      refine ⟨?_, ?_, ?_, ?_, ?_, ?_, ?_, ?_⟩ <;>
      · apply BitVec.eq_of_getLsbD_eq
        intro j hj
        simp only [BitVec.getLsbD_append, BitVec.getLsbD_extractLsb']
        interval_cases j <;> simp
    · cases h
  · rintro rfl
    simp only [wordBytes, List.cons_append, List.nil_append, takeWord, leWord, wordByte, Option.some.injEq,
      Prod.mk.injEq, and_true]
    apply BitVec.eq_of_getLsbD_eq
    intro j hj
    simp only [BitVec.getLsbD_append, BitVec.getLsbD_extractLsb']
    interval_cases j <;> simp

/-- The operand of an OPI instruction is the next eight bytes, or the decoder says truncated. -/
theorem decodeOperand_cases (mk : Word → Instr) (bs : List Byte) :
    (bs.length < 8 ∧ decodeOperand mk bs = .error .truncated) ∨
      ∃ imm rest, takeWord bs = some (imm, rest) ∧ decodeOperand mk bs = .ok (mk imm, rest) := by
  unfold decodeOperand
  cases h : takeWord bs with
  | none => exact .inl ⟨(takeWord_eq_none_iff bs).mp h, rfl⟩
  | some p => exact .inr ⟨p.1, p.2, rfl, rfl⟩

@[simp] theorem wordBytes_length (w : Word) : (wordBytes w).length = 8 := rfl

@[simp] theorem natBytes_length (k w : Nat) : (natBytes k w).length = k := by
  induction k generalizing w with
  | zero => rfl
  | succ k ih => simp [natBytes, ih]

@[simp] theorem tableBytes_length (nbits w : Nat) : (tableBytes nbits w).length = 9 := natBytes_length 9 _

end Sys2Proof
end

