-- ==== Sys2Proof/Laws/Memory.lean ====
section
/-! SUPPORT. The Bytecode Buffer's listing: every operation keeps the canonical form, a read after a
write gives the byte written, and a write leaves every other offset alone. -/

namespace Sys2Proof.Machine

@[simp] theorem Memory.read_nil (a : Nat) : Memory.read [] a = Memory.unlisted := rfl

theorem Memory.wfFrom_cons (lo k : Nat) (v : Byte) (m : Memory) :
    Memory.wfFrom lo ((k, v) :: m) = true ↔ lo ≤ k ∧ v ≠ Memory.unlisted ∧ Memory.wfFrom (k + 1) m = true := by
  simp [Memory.wfFrom, and_assoc]

/-- A lower bound may be lowered. -/
theorem Memory.wfFrom_mono {lo lo' : Nat} {m : Memory} (hle : lo' ≤ lo) (h : Memory.wfFrom lo m = true) :
    Memory.wfFrom lo' m = true := by
  cases m with
  | nil => rfl
  | cons c m =>
    obtain ⟨k, v⟩ := c
    rw [Memory.wfFrom_cons] at h ⊢
    exact ⟨hle.trans h.1, h.2⟩

/-- Below its lower bound a listing lists nothing. -/
theorem Memory.read_of_lt {lo : Nat} {m : Memory} (h : Memory.wfFrom lo m = true) {a : Nat} (ha : a < lo) :
    Memory.read m a = Memory.unlisted := by
  induction m generalizing lo with
  | nil => rfl
  | cons c m ih =>
    obtain ⟨k, v⟩ := c
    rw [Memory.wfFrom_cons] at h
    simp only [Memory.read, if_neg (show ¬ a = k by omega)]
    exact ih h.2.2 (by omega)

theorem Memory.write_wfFrom {lo : Nat} {m : Memory} (h : Memory.wfFrom lo m = true) {a : Nat} (ha : lo ≤ a)
    (b : Byte) : Memory.wfFrom lo (Memory.write m a b) = true := by
  induction m generalizing lo with
  | nil =>
    simp only [Memory.write]
    split
    · rfl
    · rename_i hb; simp [Memory.wfFrom, ha, hb]
  | cons c m ih =>
    obtain ⟨k, v⟩ := c
    have hc := h
    rw [Memory.wfFrom_cons] at h
    simp only [Memory.write]
    split
    · rename_i hlt
      split
      · exact hc
      · rename_i hb
        rw [Memory.wfFrom_cons]
        refine ⟨ha, hb, ?_⟩
        rw [Memory.wfFrom_cons]
        exact ⟨hlt, h.2⟩
    · split
      · split
        · exact Memory.wfFrom_mono (by omega) h.2.2
        · rename_i hb
          rw [Memory.wfFrom_cons]
          exact ⟨h.1, hb, h.2.2⟩
      · rw [Memory.wfFrom_cons]
        exact ⟨h.1, h.2.1, ih h.2.2 (by omega)⟩

/-- A write keeps the canonical form. -/
theorem Memory.write_wf {m : Memory} (h : m.wf = true) (a : Nat) (b : Byte) : (m.write a b).wf = true :=
  Memory.write_wfFrom h (Nat.zero_le a) b

/-- Writing consecutive bytes keeps the canonical form. -/
theorem Memory.writeBytes_wf (bs : List Byte) {m : Memory} (h : m.wf = true) (a : Nat) :
    (m.writeBytes a bs).wf = true := by
  induction bs generalizing m a with
  | nil => exact h
  | cons b bs ih => exact ih (Memory.write_wf h a b) (a + 1)

theorem Memory.ofBytes_wfFrom (bs : List Byte) (a : Nat) : Memory.wfFrom a (Memory.ofBytes a bs) = true := by
  induction bs generalizing a with
  | nil => rfl
  | cons b bs ih =>
    simp only [Memory.ofBytes]
    split
    · exact Memory.wfFrom_mono (Nat.le_succ a) (ih (a + 1))
    · rename_i hb
      rw [Memory.wfFrom_cons]
      exact ⟨le_rfl, hb, ih (a + 1)⟩

/-- The listing of a presented buffer has the canonical form. -/
theorem Memory.ofBytes_wf (bs : List Byte) : (Memory.ofBytes 0 bs).wf = true := Memory.ofBytes_wfFrom bs 0

/-- A read after a write to the same offset gives the byte written. -/
theorem Memory.read_write_same {m : Memory} (h : m.wf = true) (a : Nat) (b : Byte) :
    (m.write a b).read a = b := by
  have key : ∀ lo, Memory.wfFrom lo m = true → (m.write a b).read a = b := by
    clear h
    induction m with
    | nil =>
      intro lo _
      simp only [Memory.write]
      split
      · rename_i hb; exact hb.symm
      · simp [Memory.read]
    | cons c m ih =>
      obtain ⟨k, v⟩ := c
      intro lo h
      have hc := h
      rw [Memory.wfFrom_cons] at h
      simp only [Memory.write]
      split
      · rename_i hlt
        split
        · rename_i hb
          simp only [Memory.read, if_neg (show ¬ a = k by omega), hb]
          exact Memory.read_of_lt h.2.2 (by omega)
        · simp [Memory.read]
      · split
        · rename_i heq
          split
          · rename_i hb
            rw [hb, Memory.read_of_lt h.2.2 (by omega)]
          · simp [Memory.read, heq]
        · rename_i hne
          simp only [Memory.read, if_neg hne]
          exact ih (k + 1) h.2.2
  exact key 0 h

/-- A write leaves every other offset alone. -/
theorem Memory.read_write_other (m : Memory) {a c : Nat} (hne : c ≠ a) (b : Byte) :
    (m.write a b).read c = m.read c := by
  induction m with
  | nil =>
    simp only [Memory.write]
    split
    · rfl
    · simp [Memory.read, hne]
  | cons e m ih =>
    obtain ⟨k, v⟩ := e
    simp only [Memory.write]
    split
    · split
      · rfl
      · simp [Memory.read, hne]
    · split
      · rename_i heq
        subst heq
        split <;> simp [Memory.read, hne]
      · simp only [Memory.read, ih]

end Sys2Proof.Machine
end

