-- ==== Sys2Proof/Laws/Ops.lean ====
section
/-! SUPPORT. One lemma per shared operation that says everything it can do; later proofs cite it and do
not unfold the operation. -/

namespace Sys2Proof.Machine

/-- `withTop`: EmptyStack on an empty stack, else its continuation on the top and the rest. -/
theorem withTop_cases {s s' : State} {k : Word → List Word → State} (h : withTop s k = .next s') :
    (s.stack = [] ∧ s' = s.raise .emptyStack) ∨ ∃ t rest, s.stack = t :: rest ∧ s' = k t rest := by
  unfold withTop at h
  split at h
  · rename_i hs; exact .inl ⟨hs, by simpa using h.symm⟩
  · rename_i t rest hs; exact .inr ⟨t, rest, hs, by simpa using h.symm⟩

/-- `withTopTwo`: EmptyStack at depth 0 or 1, else its continuation on the top two and the rest. -/
theorem withTopTwo_cases {s s' : State} {k : Word → Word → List Word → State}
    (h : withTopTwo s k = .next s') :
    (s.stack.length < 2 ∧ s' = s.raise .emptyStack) ∨
      ∃ x y rest, s.stack = x :: y :: rest ∧ s' = k x y rest := by
  unfold withTopTwo at h
  split at h
  · rename_i x y rest hs; exact .inr ⟨x, y, rest, hs, by simpa using h.symm⟩
  · rename_i hs
    refine .inl ⟨?_, by simpa using h.symm⟩
    match hst : s.stack with
    | [] => simp
    | [_] => simp
    | x :: y :: rest => exact absurd hst (hs x y rest)

/-- `unlessFull`: StackOverflow when one more cell does not fit, else the state given. -/
theorem unlessFull_cases (s t : State) :
    (s.full = true ∧ unlessFull s t = s.raise .stackOverflow) ∨ (s.full = false ∧ unlessFull s t = t) := by
  cases hf : s.full
  · exact .inr ⟨rfl, by simp [unlessFull, hf]⟩
  · exact .inl ⟨rfl, by simp [unlessFull, hf]⟩

/-- `full` is `n + 1 > STACK_DEPTH` (60 R176). -/
theorem State.full_iff (s : State) : s.full = true ↔ ∃ d, s.stackDepth = some d ∧ d < s.stack.length + 1 := by
  unfold State.full
  cases s.stackDepth <;> simp

/-- `replaceTop`: EmptyStack, or the top replaced and `ip` one further. -/
theorem replaceTop_cases {f : Word → Word} {s s' : State} (h : replaceTop f s = .next s') :
    (s.stack = [] ∧ s' = s.raise .emptyStack) ∨
      ∃ t rest, s.stack = t :: rest ∧ s' = (s.withStack (f t :: rest)).advanceOp :=
  withTop_cases h

/-- `replaceTopOpi`: EmptyStack, or the top replaced and `ip` nine further. -/
theorem replaceTopOpi_cases {f : Word → Word} {s s' : State} (h : replaceTopOpi f s = .next s') :
    (s.stack = [] ∧ s' = s.raise .emptyStack) ∨
      ∃ t rest, s.stack = t :: rest ∧ s' = (s.withStack (f t :: rest)).advanceOpi :=
  withTop_cases h

/-- `combineTopTwo`: EmptyStack, or the top two replaced by one result and `ip` one further. -/
theorem combineTopTwo_cases {f : Word → Word → Word} {s s' : State} (h : combineTopTwo f s = .next s') :
    (s.stack.length < 2 ∧ s' = s.raise .emptyStack) ∨
      ∃ x y rest, s.stack = x :: y :: rest ∧ s' = (s.withStack (f x y :: rest)).advanceOp :=
  withTopTwo_cases h

/-- `conditionalJump`: EmptyStack, or the target when taken, or nine further when not; the stack stays. -/
theorem conditionalJump_cases {taken : Word → Bool} {imm : Word} {s s' : State}
    (h : conditionalJump taken imm s = .next s') :
    (s.stack = [] ∧ s' = s.raise .emptyStack) ∨
      ∃ t rest, s.stack = t :: rest ∧
        ((taken t = true ∧ s' = s.goto imm) ∨ (taken t = false ∧ s' = s.advanceOpi)) := by
  rcases withTop_cases h with h | ⟨t, rest, hs, h⟩
  · exact .inl h
  · refine .inr ⟨t, rest, hs, ?_⟩
    cases ht : taken t <;> simp [ht, jumpTarget] at h
    · exact .inr ⟨rfl, h⟩
    · exact .inl ⟨rfl, h⟩

/-- The 1-byte read inside the buffer. -/
theorem State.memRead1_of_lt {s : State} {a : Nat} (h : a < s.len) : s.memRead1 a = .ok (s.prog.read a) := by
  simp [State.memRead1, h]

/-- The 1-byte read outside the buffer. -/
theorem State.memRead1_of_le {s : State} {a : Nat} (h : s.len ≤ a) : s.memRead1 a = .error .outsideBuffer := by
  simp [State.memRead1, Nat.not_lt.mpr h]

/-- Reading one byte more, inside the buffer. -/
theorem State.readBytes_succ {s : State} {a : Nat} (h : a < s.len) (k : Nat) :
    s.readBytes a (k + 1) = s.prog.read a :: s.readBytes (a + 1) k := by
  rw [State.readBytes, State.memRead1_of_lt h]

/-- How many bytes `readBytes` finds: `k`, or as many as the buffer still holds. -/
theorem State.readBytes_length (s : State) (a k : Nat) : (s.readBytes a k).length = min k (s.len - a) := by
  induction k generalizing a with
  | zero => simp [State.readBytes]
  | succ k ih =>
    by_cases h : a < s.len
    · simp only [State.readBytes, State.memRead1_of_lt h, List.length_cons, ih]; omega
    · simp only [State.readBytes, State.memRead1_of_le (Nat.not_lt.mp h), List.length_nil]; omega

/-- Which bytes `readBytes` finds. -/
theorem State.readBytes_getElem (s : State) (a k i : Nat) (h : i < (s.readBytes a k).length) :
    (s.readBytes a k)[i] = s.prog.read (a + i) := by
  induction k generalizing a i with
  | zero => simp [State.readBytes] at h
  | succ k ih =>
    by_cases ha : a < s.len
    · simp only [State.readBytes, State.memRead1_of_lt ha] at h ⊢
      cases i with
      | zero => rfl
      | succ i =>
        simp only [List.getElem_cons_succ]
        rw [ih (a + 1) i (by simpa using h)]
        congr 1; omega
    · simp [State.readBytes, State.memRead1_of_le (Nat.not_lt.mp ha)] at h

/-- Where fetch leads, by what the decoder answers. -/
theorem State.fetch_cases (s : State) :
    (∃ i rest, decode s.fetchBytes = .ok (i, rest) ∧ s.fetch = .instr i) ∨
    (decode s.fetchBytes = .error .illegal ∧ s.fetch = .raises .invalidOpcode) ∨
    (decode s.fetchBytes = .error .truncated ∧ s.fetch = .raises .truncatedOperand) ∨
    (decode s.fetchBytes = .error .noByte ∧ s.fetch = .outside) := by
  unfold State.fetch
  rcases hd : decode s.fetchBytes with e | ⟨i, rest⟩
  · cases e <;> simp
  · simp

end Sys2Proof.Machine
end

