-- ==== Sys2Proof/Laws/PerInstr.lean ====
section
/-! SUPPORT. Statements about every instruction as syntax, one lemma per constructor. -/

namespace Sys2Proof.Laws

/-- The opcode byte is one of the 28 (30_encoding.md R54), the operand is there exactly when R52 says
so, and the encoding has the length R50 gives. -/
def OpcodeTable.Statement (i : Instr) : Prop :=
  i.opcode.toNat < Config.numOpcodes ∧
  Machine.opcodeHasOperand i.opcode = i.operand.isSome ∧
  (encode i).length = if i.operand.isSome then 1 + Config.operandBytes else 1

theorem OpcodeTable.nop : OpcodeTable.Statement .nop := ⟨by decide, by rfl, by rfl⟩

theorem OpcodeTable.push (imm : Word) : OpcodeTable.Statement (.push imm) := ⟨by simp [Instr.opcode, Config.numOpcodes], by rfl, by rfl⟩

theorem OpcodeTable.dup : OpcodeTable.Statement .dup := ⟨by decide, by rfl, by rfl⟩

theorem OpcodeTable.pop : OpcodeTable.Statement .pop := ⟨by decide, by rfl, by rfl⟩

theorem OpcodeTable.cmp : OpcodeTable.Statement .cmp := ⟨by decide, by rfl, by rfl⟩

theorem OpcodeTable.jmp (imm : Word) : OpcodeTable.Statement (.jmp imm) := ⟨by simp [Instr.opcode, Config.numOpcodes], by rfl, by rfl⟩

theorem OpcodeTable.je (imm : Word) : OpcodeTable.Statement (.je imm) := ⟨by simp [Instr.opcode, Config.numOpcodes], by rfl, by rfl⟩

theorem OpcodeTable.jne (imm : Word) : OpcodeTable.Statement (.jne imm) := ⟨by simp [Instr.opcode, Config.numOpcodes], by rfl, by rfl⟩

theorem OpcodeTable.jl (imm : Word) : OpcodeTable.Statement (.jl imm) := ⟨by simp [Instr.opcode, Config.numOpcodes], by rfl, by rfl⟩

theorem OpcodeTable.jle (imm : Word) : OpcodeTable.Statement (.jle imm) := ⟨by simp [Instr.opcode, Config.numOpcodes], by rfl, by rfl⟩

theorem OpcodeTable.jg (imm : Word) : OpcodeTable.Statement (.jg imm) := ⟨by simp [Instr.opcode, Config.numOpcodes], by rfl, by rfl⟩

theorem OpcodeTable.jge (imm : Word) : OpcodeTable.Statement (.jge imm) := ⟨by simp [Instr.opcode, Config.numOpcodes], by rfl, by rfl⟩

theorem OpcodeTable.not : OpcodeTable.Statement .not := ⟨by decide, by rfl, by rfl⟩

theorem OpcodeTable.neg : OpcodeTable.Statement .neg := ⟨by decide, by rfl, by rfl⟩

theorem OpcodeTable.rol : OpcodeTable.Statement .rol := ⟨by decide, by rfl, by rfl⟩

theorem OpcodeTable.ror : OpcodeTable.Statement .ror := ⟨by decide, by rfl, by rfl⟩

theorem OpcodeTable.shl (imm : Word) : OpcodeTable.Statement (.shl imm) := ⟨by simp [Instr.opcode, Config.numOpcodes], by rfl, by rfl⟩

theorem OpcodeTable.shr (imm : Word) : OpcodeTable.Statement (.shr imm) := ⟨by simp [Instr.opcode, Config.numOpcodes], by rfl, by rfl⟩

theorem OpcodeTable.inc : OpcodeTable.Statement .inc := ⟨by decide, by rfl, by rfl⟩

theorem OpcodeTable.dec : OpcodeTable.Statement .dec := ⟨by decide, by rfl, by rfl⟩

theorem OpcodeTable.and : OpcodeTable.Statement .and := ⟨by decide, by rfl, by rfl⟩

theorem OpcodeTable.or : OpcodeTable.Statement .or := ⟨by decide, by rfl, by rfl⟩

theorem OpcodeTable.xor : OpcodeTable.Statement .xor := ⟨by decide, by rfl, by rfl⟩

theorem OpcodeTable.add : OpcodeTable.Statement .add := ⟨by decide, by rfl, by rfl⟩

theorem OpcodeTable.sub : OpcodeTable.Statement .sub := ⟨by decide, by rfl, by rfl⟩

theorem OpcodeTable.mul : OpcodeTable.Statement .mul := ⟨by decide, by rfl, by rfl⟩

theorem OpcodeTable.div : OpcodeTable.Statement .div := ⟨by decide, by rfl, by rfl⟩

theorem OpcodeTable.prnt : OpcodeTable.Statement .prnt := ⟨by decide, by rfl, by rfl⟩

end Sys2Proof.Laws
end

