-- ==== Sys2Proof/Laws/State.lean ====
section
/-! SUPPORT. One lemma per field per update of State, so that no later proof unfolds a record update. -/

namespace Sys2Proof.Machine

/-! ### `withStack` -/

@[simp] theorem State.withStack_ip (s : State) (st : List Word) : (s.withStack st).ip = s.ip := rfl
@[simp] theorem State.withStack_stack (s : State) (st : List Word) : (s.withStack st).stack = st := rfl
@[simp] theorem State.withStack_fault (s : State) (st : List Word) : (s.withStack st).fault = s.fault := rfl
@[simp] theorem State.withStack_out (s : State) (st : List Word) : (s.withStack st).out = s.out := rfl
@[simp] theorem State.withStack_prog (s : State) (st : List Word) : (s.withStack st).prog = s.prog := rfl
@[simp] theorem State.withStack_len (s : State) (st : List Word) : (s.withStack st).len = s.len := rfl
@[simp] theorem State.withStack_stackDepth (s : State) (st : List Word) : (s.withStack st).stackDepth = s.stackDepth := rfl

/-! ### `push` -/

@[simp] theorem State.push_ip (s : State) (v : Word) : (s.push v).ip = s.ip := rfl
@[simp] theorem State.push_stack (s : State) (v : Word) : (s.push v).stack = v :: s.stack := rfl
@[simp] theorem State.push_fault (s : State) (v : Word) : (s.push v).fault = s.fault := rfl
@[simp] theorem State.push_out (s : State) (v : Word) : (s.push v).out = s.out := rfl
@[simp] theorem State.push_prog (s : State) (v : Word) : (s.push v).prog = s.prog := rfl
@[simp] theorem State.push_len (s : State) (v : Word) : (s.push v).len = s.len := rfl
@[simp] theorem State.push_stackDepth (s : State) (v : Word) : (s.push v).stackDepth = s.stackDepth := rfl

/-! ### `emit` -/

@[simp] theorem State.emit_ip (s : State) (e : Event) : (s.emit e).ip = s.ip := rfl
@[simp] theorem State.emit_stack (s : State) (e : Event) : (s.emit e).stack = s.stack := rfl
@[simp] theorem State.emit_fault (s : State) (e : Event) : (s.emit e).fault = s.fault := rfl
@[simp] theorem State.emit_out (s : State) (e : Event) : (s.emit e).out = s.out ++ [e] := rfl
@[simp] theorem State.emit_prog (s : State) (e : Event) : (s.emit e).prog = s.prog := rfl
@[simp] theorem State.emit_len (s : State) (e : Event) : (s.emit e).len = s.len := rfl
@[simp] theorem State.emit_stackDepth (s : State) (e : Event) : (s.emit e).stackDepth = s.stackDepth := rfl

/-! ### `goto` -/

@[simp] theorem State.goto_ip (s : State) (t : Word) : (s.goto t).ip = t := rfl
@[simp] theorem State.goto_stack (s : State) (t : Word) : (s.goto t).stack = s.stack := rfl
@[simp] theorem State.goto_fault (s : State) (t : Word) : (s.goto t).fault = s.fault := rfl
@[simp] theorem State.goto_out (s : State) (t : Word) : (s.goto t).out = s.out := rfl
@[simp] theorem State.goto_prog (s : State) (t : Word) : (s.goto t).prog = s.prog := rfl
@[simp] theorem State.goto_len (s : State) (t : Word) : (s.goto t).len = s.len := rfl
@[simp] theorem State.goto_stackDepth (s : State) (t : Word) : (s.goto t).stackDepth = s.stackDepth := rfl

/-! ### `advanceOp` -/

@[simp] theorem State.advanceOp_ip (s : State) : (s.advanceOp).ip = s.ip + 1#64 := rfl
@[simp] theorem State.advanceOp_stack (s : State) : (s.advanceOp).stack = s.stack := rfl
@[simp] theorem State.advanceOp_fault (s : State) : (s.advanceOp).fault = s.fault := rfl
@[simp] theorem State.advanceOp_out (s : State) : (s.advanceOp).out = s.out := rfl
@[simp] theorem State.advanceOp_prog (s : State) : (s.advanceOp).prog = s.prog := rfl
@[simp] theorem State.advanceOp_len (s : State) : (s.advanceOp).len = s.len := rfl
@[simp] theorem State.advanceOp_stackDepth (s : State) : (s.advanceOp).stackDepth = s.stackDepth := rfl

/-! ### `advanceOpi` -/

@[simp] theorem State.advanceOpi_ip (s : State) : (s.advanceOpi).ip = s.ip + 9#64 := rfl
@[simp] theorem State.advanceOpi_stack (s : State) : (s.advanceOpi).stack = s.stack := rfl
@[simp] theorem State.advanceOpi_fault (s : State) : (s.advanceOpi).fault = s.fault := rfl
@[simp] theorem State.advanceOpi_out (s : State) : (s.advanceOpi).out = s.out := rfl
@[simp] theorem State.advanceOpi_prog (s : State) : (s.advanceOpi).prog = s.prog := rfl
@[simp] theorem State.advanceOpi_len (s : State) : (s.advanceOpi).len = s.len := rfl
@[simp] theorem State.advanceOpi_stackDepth (s : State) : (s.advanceOpi).stackDepth = s.stackDepth := rfl

/-! ### `raise` -/

@[simp] theorem State.raise_ip (s : State) (k : FaultKind) : (s.raise k).ip = s.ip := rfl
@[simp] theorem State.raise_stack (s : State) (k : FaultKind) : (s.raise k).stack = s.stack := rfl
@[simp] theorem State.raise_fault (s : State) (k : FaultKind) : (s.raise k).fault = some ⟨k, s.ip⟩ := rfl
@[simp] theorem State.raise_out (s : State) (k : FaultKind) : (s.raise k).out = s.out := rfl
@[simp] theorem State.raise_prog (s : State) (k : FaultKind) : (s.raise k).prog = s.prog := rfl
@[simp] theorem State.raise_len (s : State) (k : FaultKind) : (s.raise k).len = s.len := rfl
@[simp] theorem State.raise_stackDepth (s : State) (k : FaultKind) : (s.raise k).stackDepth = s.stackDepth := rfl

/-! ### `placeNext` -/

@[simp] theorem State.placeNext_ip (s : State) (bs : List Byte) : (s.placeNext bs).ip = s.placeAt := rfl
@[simp] theorem State.placeNext_stack (s : State) (bs : List Byte) : (s.placeNext bs).stack = s.stack := rfl
@[simp] theorem State.placeNext_fault (s : State) (bs : List Byte) : (s.placeNext bs).fault = none := rfl
@[simp] theorem State.placeNext_out (s : State) (bs : List Byte) : (s.placeNext bs).out = s.out := rfl
@[simp] theorem State.placeNext_prog (s : State) (bs : List Byte) : (s.placeNext bs).prog = s.prog.writeBytes s.placeAt.toNat bs := rfl
@[simp] theorem State.placeNext_len (s : State) (bs : List Byte) : (s.placeNext bs).len = max s.len (s.placeAt.toNat + 9) := rfl
@[simp] theorem State.placeNext_stackDepth (s : State) (bs : List Byte) : (s.placeNext bs).stackDepth = s.stackDepth := rfl

/-! ### `construct` -/

@[simp] theorem State.construct_ip (p : Params) : (State.construct p).ip = 0#64 := rfl
@[simp] theorem State.construct_stack (p : Params) : (State.construct p).stack = [] := rfl
@[simp] theorem State.construct_fault (p : Params) : (State.construct p).fault = none := rfl
@[simp] theorem State.construct_out (p : Params) : (State.construct p).out = [] := rfl
@[simp] theorem State.construct_prog (p : Params) : (State.construct p).prog = Memory.ofBytes 0 p.prog := rfl
@[simp] theorem State.construct_len (p : Params) : (State.construct p).len = p.prog.length := rfl
@[simp] theorem State.construct_stackDepth (p : Params) : (State.construct p).stackDepth = p.stackDepth := rfl

/-- Reset is construction with the empty buffer and unbounded depth (R200, R201). -/
theorem State.reset_eq_construct (text : List Byte) :
    State.reset = State.construct ⟨[], none, text⟩ := rfl

end Sys2Proof.Machine
end

