-- ==== Sys2Proof/Laws/Step.lean ====
section
/-! SUPPORT. What one step can do, said once (40_dispatch_loop.md R72, R78). -/

namespace Sys2Proof.Machine

theorem State.status_eq_running_iff (s : State) : s.status = .running ↔ s.fault = none ∧ s.ip.toNat < s.len := by
  unfold State.status
  cases hf : s.fault with
  | some r => simp
  | none => by_cases h : s.ip.toNat < s.len <;> simp [h]

/-- Outside Running the step leaves the state as it is. -/
theorem step_of_not_running {s : State} (h : s.status ≠ .running) : step s = .next s := by
  unfold step
  split
  · rfl
  · rfl
  · rename_i hs; exact absurd hs h

/-- On a Running state the fetched bytes are not empty, so the decoder always has an opcode byte. -/
theorem State.fetchBytes_ne_nil {s : State} (h : s.status = .running) : s.fetchBytes ≠ [] := by
  rw [State.status_eq_running_iff] at h
  intro hn
  have hl := State.readBytes_length s s.ip.toNat 9
  rw [show s.readBytes s.ip.toNat 9 = [] from hn] at hl
  simp at hl
  omega

/-- The fetched bytes are the byte at `ip` (R73) and at most eight more. -/
theorem State.fetchBytes_of_running {s : State} (h : s.status = .running) :
    s.fetchBytes = s.prog.read s.ip.toNat :: s.readBytes (s.ip.toNat + 1) 8 :=
  State.readBytes_succ ((State.status_eq_running_iff s).mp h).2 8

theorem decode_ne_noByte (op : Byte) (rest : List Byte) : decode (op :: rest) ≠ .error .noByte := by
  have hop : ∀ mk, decodeOperand mk rest ≠ .error .noByte := by
    intro mk
    unfold decodeOperand
    split <;> simp
  rw [decode]
  split <;> first | exact hop _ | simp

/-- A step that answers a next state: nothing changed outside Running, or the decoded instruction ran,
or fetch raised one of its two faults. -/
theorem step_cases {s t : State} (h : step s = .next t) :
    (s.status ≠ .running ∧ t = s) ∨
    (s.status = .running ∧ ∃ i rest, decode s.fetchBytes = .ok (i, rest) ∧ exec i s = .next t) ∨
    (s.status = .running ∧ decode s.fetchBytes = .error .illegal ∧ t = s.raise .invalidOpcode) ∨
    (s.status = .running ∧ decode s.fetchBytes = .error .truncated ∧ t = s.raise .truncatedOperand) := by
  by_cases hs : s.status = .running
  · simp only [step, hs] at h
    rcases s.fetch_cases with ⟨i, rest, hd, hf⟩ | ⟨hd, hf⟩ | ⟨hd, hf⟩ | ⟨hd, hf⟩
    · rw [hf] at h; exact .inr (.inl ⟨hs, i, rest, hd, h⟩)
    · rw [hf] at h; exact .inr (.inr (.inl ⟨hs, hd, by simpa using h.symm⟩))
    · rw [hf] at h; exact .inr (.inr (.inr ⟨hs, hd, by simpa using h.symm⟩))
    · rw [hf] at h; cases h
  · rw [step_of_not_running hs] at h
    exact .inl ⟨hs, by simpa using h.symm⟩

end Sys2Proof.Machine
end

