-- ==== Sys2Proof/Tests/Slice0.lean ====
section
/-! SUPPORT. Tests. Expected values are those of spec/95_test_vectors.md and of the rules' own examples
and corner cases, never the model's own answers. Then one witness per statement with hypotheses. -/

namespace Sys2Proof.Tests

open Sys2Proof Sys2Proof.Machine

/-- A machine constructed with `bytes`, moved to `ip` with a stack (top first) and a STACK_DEPTH. -/
def mach (bytes : List Byte) (ip : Word) (stack : List Word) (depth : Option Nat := none) : State :=
  { State.construct ⟨bytes, depth, []⟩ with ip := ip, stack := stack }

/-- The next state, if there is one. -/
def nextOf : Host.Outcome State Fault Refusal → Option State
  | .next t => some t
  | .fault _ => none
  | .refused _ => none

/-- `ip`, the stack and `fault` after an instruction at offset 0 of a machine with nothing else. -/
def after (i : Instr) (stack : List Word) (depth : Option Nat := none) :
    Option (Nat × List Int × Option FaultKind) :=
  (nextOf (exec i (mach [] 0#64 stack depth))).map
    (fun t => (t.ip.toNat, t.stack.map BitVec.toInt, t.fault.map FaultRecord.kind))

/-! ### Well-formedness: one ill-formed term for each check -/

theorem test_wf_length : Config.lenLegal (2 ^ 63 - 1) = true ∧ Config.lenLegal (2 ^ 63) = false := by decide

theorem test_wf_depth : Config.depthLegal (some 1) = true ∧ Config.depthLegal (some 0) = false := by decide

theorem test_wf_placeholder_empty : Config.placeholderLegal [] = false := by decide

/-- `-12` is a decimal spelling; `-0`, `007` and `-` are none (R161). -/
theorem test_wf_placeholder_decimal :
    Config.placeholderLegal [0x2D#8, 0x31#8, 0x32#8] = false ∧
    Config.placeholderLegal [0x2D#8, 0x30#8] = true ∧
    Config.placeholderLegal [0x30#8, 0x30#8, 0x37#8] = true ∧ Config.placeholderLegal [0x2D#8] = true := by decide

theorem test_wf_params : Params.wellFormed ⟨[0x1B#8], some 0, [0x3F#8]⟩ = false ∧
    Params.wellFormed ⟨[0x1B#8], some 1, [0x3F#8]⟩ = true := by decide

/-! ### Decoding: every opcode byte of R54 written out, operands in little-endian order (95 section 2.1) -/

/-- The instruction of a byte alone. -/
def dec (bytes : List Byte) : Option Instr :=
  match decode bytes with
  | .ok (i, _) => some i
  | .error _ => none

/-- The eight operand bytes of 0x0102030405060708 (95 section 2.1). -/
def opBytes : List Byte := [0x08#8, 0x07#8, 0x06#8, 0x05#8, 0x04#8, 0x03#8, 0x02#8, 0x01#8]

theorem test_decode_op_low :
    dec [0x00#8] = some .nop ∧ dec [0x02#8] = some .dup ∧ dec [0x03#8] = some .pop ∧ dec [0x04#8] = some .cmp ∧
    dec [0x0C#8] = some .not ∧ dec [0x0D#8] = some .neg ∧ dec [0x0E#8] = some .rol ∧ dec [0x0F#8] = some .ror ∧
    dec [0x12#8] = some .inc := by decide

theorem test_decode_op_high :
    dec [0x13#8] = some .dec ∧ dec [0x14#8] = some .and ∧ dec [0x15#8] = some .or ∧ dec [0x16#8] = some .xor ∧
    dec [0x17#8] = some .add ∧ dec [0x18#8] = some .sub ∧ dec [0x19#8] = some .mul ∧ dec [0x1A#8] = some .div ∧
    dec [0x1B#8] = some .prnt := by decide

theorem test_decode_opi :
    dec (0x01#8 :: opBytes) = some (.push 72623859790382856#64) ∧
    dec (0x05#8 :: opBytes) = some (.jmp 72623859790382856#64) ∧
    dec (0x06#8 :: opBytes) = some (.je 72623859790382856#64) ∧
    dec (0x07#8 :: opBytes) = some (.jne 72623859790382856#64) ∧
    dec (0x08#8 :: opBytes) = some (.jl 72623859790382856#64) ∧
    dec (0x09#8 :: opBytes) = some (.jle 72623859790382856#64) ∧
    dec (0x0A#8 :: opBytes) = some (.jg 72623859790382856#64) ∧
    dec (0x0B#8 :: opBytes) = some (.jge 72623859790382856#64) ∧
    dec (0x10#8 :: opBytes) = some (.shl 72623859790382856#64) ∧
    dec (0x11#8 :: opBytes) = some (.shr 72623859790382856#64) := by decide

theorem test_decode_min_and_minus_two :
    dec [0x01#8, 0#8, 0#8, 0#8, 0#8, 0#8, 0#8, 0#8, 0x80#8] = some (.push minWord) ∧
    dec [0x01#8, 0xFE#8, 0xFF#8, 0xFF#8, 0xFF#8, 0xFF#8, 0xFF#8, 0xFF#8, 0xFF#8] = some (.push (-2#64)) := by decide

theorem test_decode_refuses :
    decode [0x1C#8] = .error .illegal ∧ decode [0xFF#8] = .error .illegal ∧
    decode [0x01#8, 0x05#8, 0#8, 0#8] = .error .truncated ∧ decode [] = .error .noByte := ⟨rfl, rfl, rfl, rfl⟩

/-- A table word of 72 bits, and one of 8 bits whose operand bytes are 0 (opcode_table.json). -/
theorem test_decode_table_word :
    decodeTableWord 72 (0x2B01) = some (.push 43#64) ∧ decodeTableWord 8 0x11 = some (.shr 0#64) ∧
    decodeTableWord 8 0x1B = some .prnt ∧ decodeTableWord 8 0x1C = none := by decide

/-! ### The step (95 sections 1.3, 2.2, 2.10) -/

/-- `ip`, stack, fault and events after `k` turns of the run from construction with `bytes`. -/
def ran (k : Nat) (bytes : List Byte) : Option (Nat × List Int × Option (FaultKind × Nat) × List Event) :=
  (nextOf (runFor k (State.construct ⟨bytes, none, []⟩))).map
    (fun t => (t.ip.toNat, t.stack.map BitVec.toInt, t.fault.map (fun r => (r.kind, r.atIp.toNat)), t.out))

theorem test_step_empty_buffer : ran 1 [] = some (0, [], none, []) := by decide

theorem test_step_illegal : ran 1 [0x1C#8] = some (0, [], some (.invalidOpcode, 0), []) := by decide

theorem test_step_jump_to_illegal :
    ran 2 [0x05#8, 9#8, 0#8, 0#8, 0#8, 0#8, 0#8, 0#8, 0#8, 0xFF#8] = some (9, [], some (.invalidOpcode, 9), []) := by
  decide

theorem test_step_operand_ends_at_length :
    ran 1 [0x01#8, 7#8, 0#8, 0#8, 0#8, 0#8, 0#8, 0#8, 0#8] = some (9, [7], none, []) := by decide

theorem test_step_truncated_by_one :
    ran 1 [0x01#8, 7#8, 0#8, 0#8, 0#8, 0#8, 0#8, 0#8] = some (0, [], some (.truncatedOperand, 0), []) := by decide

/-- SHL alone on an empty stack: TruncatedOperand before EmptyStack (95 section 2.7). -/
theorem test_step_truncated_first : ran 1 [0x10#8] = some (0, [], some (.truncatedOperand, 0), []) := by decide

/-- DIV alone on an empty stack (source example E3). -/
theorem test_step_div_alone : ran 1 [0x1A#8] = some (0, [], some (.emptyStack, 0), []) := by decide

/-- JMP -1 halts with `ip` at 2^64 - 1 (95 section 2.5). -/
theorem test_step_negative_target :
    ran 1 [0x05#8, 0xFF#8, 0xFF#8, 0xFF#8, 0xFF#8, 0xFF#8, 0xFF#8, 0xFF#8, 0xFF#8]
      = some (18446744073709551615, [], none, []) := by decide

/-- The first step after reset runs a placed instruction. -/
theorem test_step_placed :
    (nextOf (step (State.reset.withFetchWord 72 0x2B01))).map (fun t => (t.ip.toNat, t.stack)) = some (9, [43#64]) := by
  decide

/-- The status register's codes (60 R171), and the spec's order of the stack (00 R6). -/
theorem test_fault_register_and_order :
    [FaultKind.invalidOpcode, .truncatedOperand, .emptyStack, .divisionByZero, .stackOverflow].map
      (fun k => (State.reset.raise k).faultCode) = [1, 2, 3, 4, 5] ∧ State.reset.faultCode = 0 ∧
    (mach [] 0#64 [3#64, 2#64, 1#64]).S = [1#64, 2#64, 3#64] := by decide

/-! ### Stack data (95 section 2.3) -/

theorem test_nop : after .nop [7#64] = some (1, [7], none) := by decide

theorem test_push : after (.push minWord) [1#64] = some (9, [-9223372036854775808, 1], none) := by decide

theorem test_push_full : after (.push 3#64) [2#64, 1#64] (some 2) = some (0, [2, 1], some .stackOverflow) := by decide

theorem test_dup : after .dup [minWord, 1#64] = some (1, [-9223372036854775808, -9223372036854775808, 1], none) := by
  decide

theorem test_dup_full : after .dup [1#64] (some 1) = some (0, [1], some .stackOverflow) := by decide

theorem test_pop : after .pop [-1#64, 0#64] = some (1, [0], none) := by decide

theorem test_pop_empty : after .pop [] = some (0, [], some .emptyStack) := by decide

/-! ### CMP and jumps (95 sections 2.4, 2.5) -/

theorem test_cmp : after .cmp [0#64, 6#64, 9#64] = some (1, [1, 9], none) := by decide

theorem test_cmp_extremes : after .cmp [maxWord, minWord] = some (1, [-1], none) := by decide

theorem test_jmp : after (.jmp 100#64) [] = some (100, [], none) := by decide

/-- The `ip` after a jump with operand 100 on each top of the table of 95 section 2.5. -/
def jumps (mk : Word → Instr) : List (Option Nat) :=
  [-2#64, -1#64, 0#64, 1#64, 2#64, minWord, maxWord].map
    (fun x => (after (mk 100#64) [x]).map (fun r => r.1))

theorem test_je : jumps .je = [some 9, some 9, some 100, some 9, some 9, some 9, some 9] := by decide

theorem test_jne : jumps .jne = [some 100, some 100, some 9, some 100, some 100, some 100, some 100] := by decide

theorem test_jl : jumps .jl = [some 9, some 100, some 9, some 9, some 9, some 9, some 9] := by decide

theorem test_jle : jumps .jle = [some 9, some 100, some 100, some 9, some 9, some 9, some 9] := by decide

theorem test_jg : jumps .jg = [some 9, some 9, some 9, some 100, some 9, some 9, some 9] := by decide

theorem test_jge : jumps .jge = [some 9, some 9, some 100, some 100, some 9, some 9, some 9] := by decide

theorem test_je_keeps_stack : after (.je 100#64) [0#64, 7#64] = some (100, [0, 7], none) := by decide

/-! ### One-operand ALU (95 sections 2.6, 2.7) -/

theorem test_not : after .not [5#64] = some (1, [-6], none) := by decide

theorem test_neg_min : after .neg [minWord] = some (1, [-9223372036854775808], none) := by decide

theorem test_rol : after .rol [-43#64] = some (1, [-85], none) := by decide

theorem test_rol_min : after .rol [minWord] = some (1, [1], none) := by decide

theorem test_ror : after .ror [3#64] = some (1, [-9223372036854775807], none) := by decide

theorem test_ror_empty : after .ror [] = some (0, [], some .emptyStack) := by decide

theorem test_shl : after (.shl 65#64) [3#64] = some (9, [6], none) := by decide

theorem test_shl_negative : after (.shl (-1#64)) [1#64] = some (9, [-9223372036854775808], none) := by decide

theorem test_shr : after (.shr 1#64) [-7#64] = some (9, [-4], none) := by decide

theorem test_shr_negative : after (.shr (-62#64)) [-8#64] = some (9, [-2], none) := by decide

theorem test_inc_max : after .inc [maxWord] = some (1, [-9223372036854775808], none) := by decide

theorem test_dec_min : after .dec [minWord] = some (1, [9223372036854775807], none) := by decide

/-! ### Two-operand ALU (95 section 2.8), stack `[y, x]` written top first -/

theorem test_and : after .and [minWord, -1#64] = some (1, [-9223372036854775808], none) := by decide

theorem test_or : after .or [10#64, 12#64] = some (1, [14], none) := by decide

theorem test_xor : after .xor [10#64, 12#64] = some (1, [6], none) := by decide

theorem test_add : after .add [1#64, maxWord] = some (1, [-9223372036854775808], none) := by decide

theorem test_add_one_element : after .add [9#64] = some (0, [9], some .emptyStack) := by decide

theorem test_sub : after .sub [10#64, 7#64, 100#64] = some (1, [-3, 100], none) := by decide

theorem test_mul : after .mul [3037000500#64, 3037000500#64] = some (1, [-9223372036709301616], none) := by decide

theorem test_div : after .div [2#64, -7#64] = some (1, [-3], none) := by decide

theorem test_div_min : after .div [-1#64, minWord] = some (1, [-9223372036854775808], none) := by decide

/-! ### Output (95 section 2.9) -/

theorem test_prnt : (nextOf (exec .prnt (mach [] 0#64 [-16#64, 5#64]))).map
    (fun t => (t.ip, t.stack, t.out)) = some (1#64, [5#64], [.val (-16#64)]) := by decide

theorem test_prnt_empty : (nextOf (exec .prnt (mach [] 0#64 []))).map
    (fun t => (t.ip, t.stack, t.out)) = some (1#64, [], [.empty]) := by decide

theorem test_sink : console [0x3F#8] [.val 3#64, .val (-16#64), .val 0#64, .empty]
    = [0x33#8, 0x0A#8, 0x2D#8, 0x31#8, 0x36#8, 0x0A#8, 0x30#8, 0x0A#8, 0x3F#8, 0x0A#8] := by decide

/-- `-9223372036854775808`, the longest line (95 section 2.9). -/
theorem test_sink_min : decimal minWord
    = [0x2D#8, 0x39#8, 0x32#8, 0x32#8, 0x33#8, 0x33#8, 0x37#8, 0x32#8, 0x30#8, 0x33#8,
       0x36#8, 0x38#8, 0x35#8, 0x34#8, 0x37#8, 0x37#8, 0x35#8, 0x38#8, 0x30#8, 0x38#8] := by decide

/-! ### Witnesses: a state and operands that meet the hypotheses of each statement, clause by clause -/

theorem next_of {o : Host.Outcome State Fault Refusal} {t : State} (h : nextOf o = some t) : o = .next t := by
  cases o <;> simp_all [nextOf]

/-- PUSH with operand 7, nine bytes. -/
def push7 : List Byte := [0x01#8, 7#8, 0#8, 0#8, 0#8, 0#8, 0#8, 0#8, 0#8]

/-- A full machine of depth 1 at a DUP, the last byte of its buffer. -/
def fullAtDup : State := mach [0x02#8] 0#64 [5#64] (some 1)

/-- A Faulted machine. -/
def faultedMach : State := (mach [0x1C#8] 0#64 []).raise .invalidOpcode

theorem inv_fullAtDup : Inv fullAtDup where
  progWf := by decide
  progBelow := by decide
  lenLegal := by decide
  depthLegal := by intro d h; cases h; decide
  depthBound := by intro d h; cases h; decide
  faultAt := by intro r h; cases h

theorem witness_DecodeInvertsEncode : Instr.wellFormed (.push minWord) = true := rfl

theorem witness_EncodeInvertsDecode : decode (push7 ++ [0xFF#8]) = .ok (.push 7#64, [0xFF#8]) := rfl

theorem witness_BytesFrom28AreIllegal :
    (mach [0x1C#8] 0#64 [1#64]).status = .running ∧ (mach [0x1C#8] 0#64 [1#64]).memRead1 0 = .ok 0x1C#8 ∧
    28 ≤ (0x1C#8).toNat ∧ (mach [0xFF#8] 0#64 []).status = .running ∧
    (mach [0xFF#8] 0#64 []).memRead1 0 = .ok 0xFF#8 ∧ 28 ≤ (0xFF#8).toNat := ⟨rfl, rfl, by decide, rfl, rfl, by decide⟩

theorem witness_OpcodeByteFixesLength :
    decode (0x11#8 :: opBytes) = .ok (.shr 72623859790382856#64, []) ∧ (0x11#8).toNat ∈ [1, 5, 6, 7, 8, 9, 10, 11, 16, 17] ∧
    decode (0x12#8 :: opBytes) = .ok (.inc, opBytes) ∧ (0x12#8).toNat ∉ [1, 5, 6, 7, 8, 9, 10, 11, 16, 17] ∧
    28 ≤ (0x1C#8).toNat := ⟨rfl, by decide, rfl, by decide, by decide⟩

theorem witness_EightByteReadIsLittleEndian : 0 + 8 ≤ (mach opBytes 0#64 []).len := by decide

theorem witness_ReadsAnswerInsideTheBufferOnly :
    7 + 1 ≤ (mach opBytes 0#64 []).len ∧ (mach opBytes 0#64 []).len < 8 + 1 ∧
    0 + 8 ≤ (mach opBytes 0#64 []).len ∧ (mach opBytes 0#64 []).len < 1 + 8 := by decide

theorem witness_OperandIsFetchedOrTruncated :
    (mach push7 0#64 []).status = .running ∧ (mach push7 0#64 []).memRead1 0 = .ok 0x01#8 ∧
    0 + 9 ≤ (mach push7 0#64 []).len ∧ (mach push7.dropLast 0#64 []).status = .running ∧
    (mach push7.dropLast 0#64 []).memRead1 0 = .ok 0x01#8 ∧ (mach push7.dropLast 0#64 []).len < 0 + 9 ∧
    (0x01#8).toNat ∈ [1, 5, 6, 7, 8, 9, 10, 11, 16, 17] := ⟨rfl, rfl, by decide, rfl, rfl, by decide, by decide⟩

theorem witness_StepRunsTheDecodedInstruction :
    (mach push7 0#64 []).status = .running ∧ decode (mach push7 0#64 []).fetchBytes = .ok (.push 7#64, []) := ⟨rfl, rfl⟩

/-- Offset 1 of PUSH 27 is a PRNT (95 program P5). -/
theorem witness_StepRunsTheInstructionEncodedAtIp :
    (mach [0x01#8, 0x1B#8, 0#8, 0#8, 0#8, 0#8, 0#8, 0#8, 0#8] 1#64 []).fault = none ∧
    ∀ k, (h : k < (encode .prnt).length) →
      (mach [0x01#8, 0x1B#8, 0#8, 0#8, 0#8, 0#8, 0#8, 0#8, 0#8] 1#64 []).memRead1 (1 + k) = .ok ((encode .prnt)[k]) := by
  refine ⟨rfl, fun k h => ?_⟩
  have hk : k = 0 := Nat.lt_one_iff.mp h
  subst hk
  rfl

theorem witness_FetchWordRunsNext : (mach push7 3#64 [1#64]).prog.wf = true ∧
    decodeTableWord 72 0x2B05 = some (.jmp 43#64) := by decide

theorem witness_StatusIsAFunctionOfFaultAndIp :
    faultedMach.fault ≠ none ∧ (mach push7 8#64 []).fault = none ∧ (8#64).toNat < (mach push7 8#64 []).len ∧
    (mach push7 9#64 []).fault = none ∧ (mach push7 9#64 []).len ≤ (9#64).toNat := by decide

theorem witness_NothingMovesOutsideRunning : faultedMach.status ≠ .running ∧ (mach push7 9#64 []).status ≠ .running := by
  decide

theorem witness_FirstFailingCheckIsTheFault :
    (mach [0x06#8, 0#8] 0#64 []).status = .running ∧ (mach [0x06#8, 0#8] 0#64 []).memRead1 0 = .ok 0x06#8 ∧
    firstFault 0x06#8 (mach [0x06#8, 0#8] 0#64 []) = some .truncatedOperand ∧
    firstFault 0x1A#8 (mach [0x1A#8] 0#64 [0#64]) = some .emptyStack ∧
    firstFault 0x1A#8 (mach [0x1A#8] 0#64 [0#64, 5#64]) = some .divisionByZero ∧
    firstFault 0x02#8 fullAtDup = some .stackOverflow ∧ firstFault 0x1B#8 (mach [0x1B#8] 0#64 []) = none :=
  ⟨rfl, rfl, by decide, by decide, by decide, by decide, by decide⟩

theorem witness_FaultsArePrecise : fullAtDup.fault = none ∧ step fullAtDup = .next (fullAtDup.raise .stackOverflow) ∧
    (fullAtDup.raise .stackOverflow).fault = some ⟨.stackOverflow, 0#64⟩ := ⟨rfl, next_of (by decide), rfl⟩

/-- Both clauses: PRNT ends at `L`; a taken JE (`06 00 ...` on a top of 0) goes to its operand. -/
theorem witness_NextIpIsOneOfThree :
    (∃ s t, Inv s ∧ s.status = .running ∧ s.memRead1 s.ip.toNat = .ok 0x1B#8 ∧ step s = .next t ∧ t.fault = none ∧
      opcodeHasOperand 0x1B#8 = false) ∧
    (∃ s t, Inv s ∧ s.status = .running ∧ s.memRead1 s.ip.toNat = .ok 0x06#8 ∧ step s = .next t ∧ t.fault = none ∧
      opcodeHasOperand 0x06#8 = true) := by
  refine ⟨⟨mach [0x1B#8] 0#64 [], { mach [0x1B#8] 1#64 [] with out := [.empty] }, ?_, rfl, rfl, next_of (by decide), rfl, by decide⟩,
    ⟨mach (0x06#8 :: opBytes) 0#64 [0#64], mach (0x06#8 :: opBytes) 72623859790382856#64 [0#64], ?_, rfl, rfl,
      next_of (by decide), rfl, by decide⟩⟩ <;>
  exact ⟨by decide, by decide, by decide, (by intro d h; cases h), (by intro d h; cases h), (by intro r h; cases h)⟩

theorem witness_DepthFollowsTheStackEffectTable :
    (mach [] 0#64 [2#64, 1#64]).fault = none ∧ exec .add (mach [] 0#64 [2#64, 1#64]) = .next (mach [] 1#64 [3#64]) ∧
    (mach [] 1#64 [3#64]).fault = none := ⟨rfl, next_of (by decide), rfl⟩

theorem witness_OnlyTheTopTwoCellsAreReached :
    [1#64, 2#64].length = 2 ∧ ([3#64] : List Word).length = ([maxWord] : List Word).length := by decide

theorem witness_BufferAndParametersNeverChange :
    step (mach push7 0#64 []) = .next (mach push7 9#64 [7#64]) := next_of (by decide)

theorem witness_OutputGrowsOnlyByPrnt :
    step (mach [0x1B#8] 0#64 [7#64]) = .next { mach [0x1B#8] 1#64 [] with out := [.val 7#64] } := next_of (by decide)

theorem witness_StepKeepsInv : Inv fullAtDup ∧ step fullAtDup = .next (fullAtDup.raise .stackOverflow) :=
  ⟨inv_fullAtDup, next_of (by decide)⟩

theorem witness_RunsOfLegalMachinesMeetInv :
    Params.wellFormed ⟨push7, some 1, [0x3F#8]⟩ = true ∧
    runFor 5 (State.construct ⟨push7, some 1, [0x3F#8]⟩) = .next (mach push7 9#64 [7#64] (some 1)) :=
  ⟨by decide, next_of (by decide)⟩

theorem witness_EmptyStackExactlyWhenTooShallow :
    (mach [] 0#64 [9#64]).stack.length < opcodeNeed (Instr.opcode .add) ∧
    opcodeNeed (Instr.opcode .div) ≤ (mach [] 0#64 [0#64, 5#64]).stack.length ∧ (mach [] 0#64 [0#64, 5#64]).fault = none ∧
    exec .div (mach [] 0#64 [0#64, 5#64]) = .next ((mach [] 0#64 [0#64, 5#64]).raise .divisionByZero) :=
  ⟨by decide, by decide, rfl, next_of (by decide)⟩

theorem witness_DivisionByZeroExactlyForDiv :
    (mach [] 0#64 [0#64, 0#64]).stack = 0#64 :: 0#64 :: [] ∧ (mach [] 0#64 [0#64, 0#64]).fault = none ∧
    exec .div (mach [] 0#64 [0#64, 0#64]) = .next ((mach [] 0#64 [0#64, 0#64]).raise .divisionByZero) :=
  ⟨rfl, rfl, next_of (by decide)⟩

theorem witness_StackOverflowExactlyForPushAndDup :
    fullAtDup.stackDepth = some 1 ∧ 1 < fullAtDup.stack.length + 1 ∧ fullAtDup.stack ≠ [] ∧ fullAtDup.fault = none ∧
    exec .dup fullAtDup = .next (fullAtDup.raise .stackOverflow) :=
  ⟨rfl, by decide, by decide, rfl, next_of (by decide)⟩

/-- The last free cell of a finite stack. -/
theorem witness_PushAddsItsOperand :
    ∀ d, (mach [] 0#64 [1#64] (some 2)).stackDepth = some d → (mach [] 0#64 [1#64] (some 2)).stack.length + 1 ≤ d := by
  intro d h
  cases h
  decide

theorem witness_DupCopiesTheTop : (mach [] 0#64 [1#64] (some 2)).stack = 1#64 :: [] ∧
    ∀ d, (mach [] 0#64 [1#64] (some 2)).stackDepth = some d → (mach [] 0#64 [1#64] (some 2)).stack.length + 1 ≤ d :=
  ⟨rfl, witness_PushAddsItsOperand⟩

theorem witness_PopDiscardsTheTop :
    (mach [] 0#64 [minWord]).stack = minWord :: [] ∧ (mach [] 0#64 []).stack = [] := ⟨rfl, rfl⟩

/-- The three orders, at the ends of the range, and a depth of one. -/
theorem witness_CmpPushesTheSignedOrder :
    (mach [] 0#64 [maxWord, minWord]).stack = maxWord :: minWord :: [] ∧ minWord.toInt < maxWord.toInt ∧
    (mach [] 0#64 [minWord, minWord]).stack = minWord :: minWord :: [] ∧
    (mach [] 0#64 [minWord, maxWord]).stack = minWord :: maxWord :: [] ∧ (mach [] 0#64 [1#64]).stack.length < 2 :=
  ⟨rfl, by decide, rfl, rfl, by decide⟩

theorem witness_CmpIsAntiSymmetric :
    exec .cmp { mach [] 0#64 [] with stack := [2#64, 1#64] } = .next (mach [] 1#64 [-1#64]) ∧
    exec .cmp { mach [] 0#64 [] with stack := [1#64, 2#64] } = .next (mach [] 1#64 [1#64]) :=
  ⟨next_of (by decide), next_of (by decide)⟩

/-- Taken and not taken for each of JE and JNE. -/
theorem witness_JeAndJneTestForZero :
    (mach [] 0#64 [0#64]).stack = 0#64 :: [] ∧ (mach [] 0#64 [minWord]).stack = minWord :: [] := ⟨rfl, rfl⟩

theorem witness_JlAndJleTestForMinusOne :
    (mach [] 0#64 [-1#64]).stack = (-1#64) :: [] ∧ (mach [] 0#64 [-2#64]).stack = (-2#64) :: [] := ⟨rfl, rfl⟩

theorem witness_JgAndJgeTestForOne :
    (mach [] 0#64 [1#64]).stack = 1#64 :: [] ∧ (mach [] 0#64 [2#64]).stack = 2#64 :: [] := ⟨rfl, rfl⟩

theorem witness_NotComplementsEveryBit :
    (mach [] 0#64 [minWord]).stack = minWord :: [] ∧ (mach [] 0#64 []).stack = [] := ⟨rfl, rfl⟩

theorem witness_NegWraps : (mach [] 0#64 [minWord]).stack = minWord :: [] := rfl

theorem witness_RolRotatesLeftByOne : (mach [] 0#64 [minWord]).stack = minWord :: [] := rfl

theorem witness_RorRotatesRightByOne : (mach [] 0#64 [1#64]).stack = 1#64 :: [] := rfl

theorem witness_ShlMultipliesByAPowerOfTwo : (mach [] 0#64 [maxWord]).stack = maxWord :: [] := rfl

theorem witness_ShrFloorsByAPowerOfTwo : (mach [] 0#64 [minWord]).stack = minWord :: [] := rfl

theorem witness_IncAndDecWrap : (mach [] 0#64 [maxWord]).stack = maxWord :: [] := rfl

theorem witness_AndOrXorWorkBitByBit :
    (mach [] 0#64 [minWord, -1#64]).stack = minWord :: (-1#64) :: [] ∧ (mach [] 0#64 [9#64]).stack.length < 2 :=
  ⟨rfl, by decide⟩

theorem witness_AddPushesTheWrappedSum : (mach [] 0#64 [1#64, maxWord]).stack = 1#64 :: maxWord :: [] := rfl

theorem witness_SubPushesFirstMinusSecond : (mach [] 0#64 [minWord, 0#64]).stack = minWord :: 0#64 :: [] := rfl

theorem witness_MulPushesTheLowProduct : (mach [] 0#64 [-1#64, minWord]).stack = (-1#64) :: minWord :: [] := rfl

/-- Both clauses: -7 / 2 and MIN / -1. -/
theorem witness_DivPushesTheTruncatedQuotient :
    (mach [] 0#64 [2#64, -7#64]).stack = 2#64 :: (-7#64) :: [] ∧ (2#64).toInt ≠ 0 ∧ ¬ (-7#64 = minWord ∧ (2#64).toInt = -1) ∧
    (mach [] 0#64 [-1#64, minWord]).stack = (-1#64) :: minWord :: [] ∧ (-1#64).toInt ≠ 0 ∧ (-1#64).toInt = -1 :=
  ⟨rfl, by decide, by decide, rfl, by decide, by decide⟩

theorem witness_PrntEmitsTheTopOrThePlaceholder :
    (mach [] 0#64 [3#64]).stack = 3#64 :: [] ∧ (mach [] 0#64 []).stack = [] := ⟨rfl, rfl⟩

theorem witness_PlaceholderLineIsNoValueLine : Config.placeholderLegal [0x3F#8] = true := by decide

end Sys2Proof.Tests
end

namespace Sys2Proof.Machine

/-! ### The status (10_state.md R20)

With `State.status_eq_running_iff`, the three cases of R20 as equivalences. -/

theorem State.status_eq_faulted_iff (s : State) : s.status = .faulted ↔ s.fault ≠ none := by
  unfold State.status
  cases s.fault with
  | some r => simp
  | none => by_cases h : s.ip.toNat < s.len <;> simp [h]

theorem State.status_eq_halted_iff (s : State) :
    s.status = .halted ↔ s.fault = none ∧ s.len ≤ s.ip.toNat := by
  unfold State.status
  cases s.fault with
  | some r => simp
  | none => simp

/-- Settles O12, by the equivalence for each value of the status. -/
theorem statusIsAFunctionOfFaultAndIp : Obligations.StatusIsAFunctionOfFaultAndIp := fun s =>
  ⟨s.status_eq_faulted_iff.mpr,
    fun hfault hip => s.status_eq_running_iff.mpr ⟨hfault, hip⟩,
    fun hfault hip => s.status_eq_halted_iff.mpr ⟨hfault, hip⟩⟩

/-! ### The cells an instruction reaches (10_state.md R13)

Each shared operation reaches the top two cells only; of the deeper ones an instruction sees no more
than how many there are, and that only in the overflow check of PUSH and DUP (60_exceptions.md R176). -/

/-- On a stack of two cells and `n` deeper ones, what `f` answers is fixed by the two cells and `n`:
one state `t` and one list `newTop` serve every choice of the deeper cells, which stay below `newTop`. -/
def ReachesTopTwoOnly (f : State → Host.Outcome State Fault Refusal) : Prop :=
  ∀ (s : State) (x y : Word) (n : Nat), ∃ (t : State) (newTop : List Word),
    ∀ deep : List Word, deep.length = n →
      f (s.withStack (x :: y :: deep)) = .next (t.withStack (newTop ++ deep))

theorem replaceTop_reachesTopTwoOnly (f : Word → Word) : ReachesTopTwoOnly (replaceTop f) :=
  fun s x y _ => ⟨s.advanceOp, [f x, y], fun _ _ => rfl⟩

theorem replaceTopOpi_reachesTopTwoOnly (f : Word → Word) : ReachesTopTwoOnly (replaceTopOpi f) :=
  fun s x y _ => ⟨s.advanceOpi, [f x, y], fun _ _ => rfl⟩

theorem combineTopTwo_reachesTopTwoOnly (f : Word → Word → Word) : ReachesTopTwoOnly (combineTopTwo f) :=
  fun s x y _ => ⟨s.advanceOp, [f x y], fun _ _ => rfl⟩

theorem conditionalJump_reachesTopTwoOnly (taken : Word → Bool) (imm : Word) :
    ReachesTopTwoOnly (conditionalJump taken imm) := by
  intro s x y n
  by_cases hx : taken x
  · exact ⟨s.goto (jumpTarget imm), [x, y], fun _ _ => congrArg _ (if_pos hx)⟩
  · exact ⟨s.advanceOpi, [x, y], fun _ _ => congrArg _ (if_neg hx)⟩

/-- DIV: the divisor that decides on DivisionByZero is the top, and both operands stay on that fault. -/
theorem execDiv_reachesTopTwoOnly : ReachesTopTwoOnly execDiv := by
  intro s x y n
  by_cases hx : x.toInt = 0
  · exact ⟨s.raise .divisionByZero, [x, y], fun _ _ => congrArg _ (if_pos hx)⟩
  · exact ⟨s.advanceOp, [divResult x y], fun _ _ => congrArg _ (if_neg hx)⟩

theorem State.full_withStack_congr (s : State) {st st' : List Word} (h : st.length = st'.length) :
    (s.withStack st).full = (s.withStack st').full := by
  rw [Bool.eq_iff_iff, State.full_iff, State.full_iff]
  simp [h]

/-- A push of `v` that goes on at `target` unless the stack is full: the deeper cells count, their
contents do not. -/
theorem unlessFull_push_goto_of_length (s : State) (x y v target : Word) (n : Nat) :
    ∃ (t : State) (newTop : List Word), ∀ deep : List Word, deep.length = n →
      unlessFull (s.withStack (x :: y :: deep)) (((s.withStack (x :: y :: deep)).push v).goto target) =
        t.withStack (newTop ++ deep) := by
  have hfull : ∀ deep : List Word, deep.length = n →
      (s.withStack (x :: y :: deep)).full = (s.withStack (x :: y :: List.replicate n 0#64)).full :=
    fun deep hn => s.full_withStack_congr (by simp [hn])
  by_cases hf : (s.withStack (x :: y :: List.replicate n 0#64)).full
  · exact ⟨s.raise .stackOverflow, [x, y], fun deep hn => if_pos (by rwa [hfull deep hn])⟩
  · exact ⟨s.goto target, [v, x, y], fun deep hn => if_neg (by rwa [hfull deep hn])⟩

theorem execPush_reachesTopTwoOnly (imm : Word) : ReachesTopTwoOnly (execPush imm) := fun s x y n =>
  have ⟨t, newTop, h⟩ := unlessFull_push_goto_of_length s x y imm (s.ip + 9#64) n
  ⟨t, newTop, fun deep hn => congrArg _ (h deep hn)⟩

theorem execDup_reachesTopTwoOnly : ReachesTopTwoOnly execDup := fun s x y n =>
  have ⟨t, newTop, h⟩ := unlessFull_push_goto_of_length s x y x (s.ip + 1#64) n
  ⟨t, newTop, fun deep hn => congrArg _ (h deep hn)⟩

/-- R13 for every instruction: its shared operation's lemma, or its next state written out. -/
theorem exec_reachesTopTwoOnly (i : Instr) : ReachesTopTwoOnly (exec i) :=
  match i with
  | .nop => fun s x y _ => ⟨s.advanceOp, [x, y], fun _ _ => rfl⟩
  | .push imm => execPush_reachesTopTwoOnly imm
  | .dup => execDup_reachesTopTwoOnly
  | .pop => fun s _ y _ => ⟨s.advanceOp, [y], fun _ _ => rfl⟩
  | .cmp => combineTopTwo_reachesTopTwoOnly fun b a => compareResult a b
  | .jmp imm => fun s x y _ => ⟨s.goto (jumpTarget imm), [x, y], fun _ _ => rfl⟩
  | .je imm => conditionalJump_reachesTopTwoOnly takenE imm
  | .jne imm => conditionalJump_reachesTopTwoOnly takenNE imm
  | .jl imm => conditionalJump_reachesTopTwoOnly takenL imm
  | .jle imm => conditionalJump_reachesTopTwoOnly takenLE imm
  | .jg imm => conditionalJump_reachesTopTwoOnly takenG imm
  | .jge imm => conditionalJump_reachesTopTwoOnly takenGE imm
  | .not => replaceTop_reachesTopTwoOnly notResult
  | .neg => replaceTop_reachesTopTwoOnly negResult
  | .rol => replaceTop_reachesTopTwoOnly rolResult
  | .ror => replaceTop_reachesTopTwoOnly rorResult
  | .shl imm => replaceTopOpi_reachesTopTwoOnly (shlResult imm)
  | .shr imm => replaceTopOpi_reachesTopTwoOnly (shrResult imm)
  | .inc => replaceTop_reachesTopTwoOnly incResult
  | .dec => replaceTop_reachesTopTwoOnly decResult
  | .and => combineTopTwo_reachesTopTwoOnly andResult
  | .or => combineTopTwo_reachesTopTwoOnly orResult
  | .xor => combineTopTwo_reachesTopTwoOnly xorResult
  | .add => combineTopTwo_reachesTopTwoOnly addResult
  | .sub => combineTopTwo_reachesTopTwoOnly subResult
  | .mul => combineTopTwo_reachesTopTwoOnly mulResult
  | .div => execDiv_reachesTopTwoOnly
  | .prnt => fun s x y _ => ⟨(s.emit (.val x)).advanceOp, [y], fun _ _ => rfl⟩

/-- Settles O19: both lists of deeper cells are instances of `exec_reachesTopTwoOnly` at one length. -/
theorem onlyTheTopTwoCellsAreReached : Obligations.OnlyTheTopTwoCellsAreReached := by
  intro i s topTwo deep deep' htop hlen
  obtain ⟨x, y, rfl⟩ := List.length_eq_two.mp htop
  obtain ⟨t, newTop, h⟩ := exec_reachesTopTwoOnly i s x y deep'.length
  exact ⟨t, newTop, h deep hlen, h deep' rfl⟩

end Sys2Proof.Machine

namespace Sys2Proof

/-! ### A word and its eight bytes (20_memory.md R31)

Both forms of R31: the bytes of a word by position, and the word as their weighted sum. -/

theorem wordBytes_eq_ofFn (w : Word) : wordBytes w = List.ofFn fun k : Fin 8 => wordByte w k := rfl

theorem wordBytes_getElem (w : Word) {k : Nat} (h : k < (wordBytes w).length) :
    (wordBytes w)[k] = wordByte w k := by
  simp only [wordBytes_eq_ofFn, List.getElem_ofFn]

theorem wordByte_toNat (w : Word) (k : Nat) :
    (wordByte w k).toNat = w.toNat / (2 ^ 8) ^ k % 2 ^ 8 := by
  rw [wordByte, BitVec.extractLsb'_toNat, Nat.shiftRight_eq_div_pow, pow_mul]

/-- The first `n` bytes, weighted as in R31, are the word's low `8 * n` bits. -/
theorem sum_wordByte_eq_mod (w : Word) (n : Nat) :
    ∑ k ∈ Finset.range n, 2 ^ (8 * k) * (wordByte w k).toNat = w.toNat % (2 ^ 8) ^ n := by
  induction n with
  | zero => simp [Nat.mod_one]
  | succ n ih => rw [Finset.sum_range_succ, ih, wordByte_toNat, pow_mul, Nat.mod_pow_succ (b := 2 ^ 8)]

theorem toNat_eq_sum_wordByte (w : Word) :
    w.toNat = ∑ k ∈ Finset.range 8, 2 ^ (8 * k) * (wordByte w k).toNat :=
  calc w.toNat = w.toNat % (2 ^ 8) ^ 8 := (Nat.mod_eq_of_lt w.isLt).symm
    _ = _ := (sum_wordByte_eq_mod w 8).symm

namespace Machine

/-! ### The 8-byte read (20_memory.md R31, R35) -/

theorem State.memRead8_eq_ok_iff (s : State) (a : Nat) (w : Word) :
    s.memRead8 a = .ok w ↔ s.readBytes a 8 = wordBytes w := by
  have hrest : ∀ rest, takeWord (s.readBytes a 8) = some (w, rest) → rest = [] := by
    intro rest h
    have hlen := congrArg List.length ((takeWord_eq_some_iff _ rest w).mp h)
    rw [State.readBytes_length, List.length_append, wordBytes_length] at hlen
    exact List.eq_nil_of_length_eq_zero (by omega)
  rw [← List.append_nil (wordBytes w), ← takeWord_eq_some_iff, State.memRead8]
  rcases htake : takeWord (s.readBytes a 8) with _ | ⟨v, rest⟩
  · simp
  · suffices v = w → rest = [] by simpa using this
    rintro rfl
    exact hrest rest htake

theorem State.exists_memRead8_of_le {s : State} {a : Nat} (h : a + 8 ≤ s.len) :
    ∃ w, s.memRead8 a = .ok w := by
  rw [State.memRead8]
  cases htake : takeWord (s.readBytes a 8) with
  | some p => exact ⟨p.1, rfl⟩
  | none =>
    rw [takeWord_eq_none_iff, State.readBytes_length] at htake
    omega

/-- Byte `k` of the word an 8-byte read gives is the buffer's byte at `a + k`. -/
theorem State.wordByte_of_memRead8 {s : State} {a : Nat} {w : Word} (h : s.memRead8 a = .ok w)
    {k : Nat} (hk : k < 8) : wordByte w k = s.prog.read (a + k) := by
  have hbytes := (s.memRead8_eq_ok_iff a w).mp h
  have hlt : k < (s.readBytes a 8).length := by rw [hbytes, wordBytes_length]; exact hk
  rw [← wordBytes_getElem w (by rwa [wordBytes_length]), ← s.readBytes_getElem a 8 k hlt]
  simp only [hbytes]

/-- Settles O6: the word's bytes are the buffer's (`State.wordByte_of_memRead8`), and every word is
the weighted sum of its bytes. -/
theorem eightByteReadIsLittleEndian : Obligations.EightByteReadIsLittleEndian := by
  intro s a ha
  obtain ⟨w, hw⟩ := State.exists_memRead8_of_le ha
  refine ⟨w, hw, fun k hk => ?_, ?_⟩
  · rw [State.memRead1_of_lt (by omega), ← State.wordByte_of_memRead8 hw hk, wordByte]
  · rw [toNat_eq_sum_wordByte w]
    exact Finset.sum_congr rfl fun k hk =>
      by rw [State.wordByte_of_memRead8 hw (Finset.mem_range.mp hk)]

end Machine

end Sys2Proof

namespace Sys2Proof

/-! ### What the opcode byte fixes (30_encoding.md R51 to R56)

The first byte alone decides how the decoder goes on: with the instruction itself (format OP), with
the operand of a known constructor (format OPI), or not at all (R56). -/

/-- The family `OpcodeTable` for any instruction. -/
theorem opcodeTable_statement : ∀ i : Instr, Laws.OpcodeTable.Statement i
  | .nop => Laws.OpcodeTable.nop
  | .push imm => Laws.OpcodeTable.push imm
  | .dup => Laws.OpcodeTable.dup
  | .pop => Laws.OpcodeTable.pop
  | .cmp => Laws.OpcodeTable.cmp
  | .jmp imm => Laws.OpcodeTable.jmp imm
  | .je imm => Laws.OpcodeTable.je imm
  | .jne imm => Laws.OpcodeTable.jne imm
  | .jl imm => Laws.OpcodeTable.jl imm
  | .jle imm => Laws.OpcodeTable.jle imm
  | .jg imm => Laws.OpcodeTable.jg imm
  | .jge imm => Laws.OpcodeTable.jge imm
  | .not => Laws.OpcodeTable.not
  | .neg => Laws.OpcodeTable.neg
  | .rol => Laws.OpcodeTable.rol
  | .ror => Laws.OpcodeTable.ror
  | .shl imm => Laws.OpcodeTable.shl imm
  | .shr imm => Laws.OpcodeTable.shr imm
  | .inc => Laws.OpcodeTable.inc
  | .dec => Laws.OpcodeTable.dec
  | .and => Laws.OpcodeTable.and
  | .or => Laws.OpcodeTable.or
  | .xor => Laws.OpcodeTable.xor
  | .add => Laws.OpcodeTable.add
  | .sub => Laws.OpcodeTable.sub
  | .mul => Laws.OpcodeTable.mul
  | .div => Laws.OpcodeTable.div
  | .prnt => Laws.OpcodeTable.prnt

theorem opcodeHasOperand_opcode (i : Instr) :
    Machine.opcodeHasOperand i.opcode = i.operand.isSome :=
  have ⟨_, hoperand, _⟩ := opcodeTable_statement i
  hoperand

theorem opcodeHasOperand_iff (op : Byte) :
    Machine.opcodeHasOperand op = true ↔ op.toNat ∈ [1, 5, 6, 7, 8, 9, 10, 11, 16, 17] := by
  simp [Machine.opcodeHasOperand, BitVec.toNat_eq]

/-- `op` is the byte of the instruction `i` of format OP: nothing after it is read (R50). -/
structure IsOpByte (op : Byte) (i : Instr) : Prop where
  opcode : i.opcode = op
  operand : i.operand = none
  decode : ∀ rest, Sys2Proof.decode (op :: rest) = .ok (i, rest)

/-- `op` is the byte of the instructions `mk imm` of format OPI: the operand is read next (R53). -/
structure IsOpiByte (op : Byte) (mk : Word → Instr) : Prop where
  opcode : ∀ imm, (mk imm).opcode = op
  operand : ∀ imm, (mk imm).operand = some imm
  decode : ∀ rest, Sys2Proof.decode (op :: rest) = decodeOperand mk rest

/-- The opcode map of R54, row by row: each byte below 28 has one of the two formats. -/
theorem isOpByte_or_isOpiByte_of_fin (n : Fin 28) :
    (∃ i, IsOpByte (BitVec.ofNat 8 n) i) ∨ ∃ mk, IsOpiByte (BitVec.ofNat 8 n) mk :=
  match n with
  | 0 => .inl ⟨.nop, rfl, rfl, fun _ => rfl⟩
  | 1 => .inr ⟨.push, fun _ => rfl, fun _ => rfl, fun _ => rfl⟩
  | 2 => .inl ⟨.dup, rfl, rfl, fun _ => rfl⟩
  | 3 => .inl ⟨.pop, rfl, rfl, fun _ => rfl⟩
  | 4 => .inl ⟨.cmp, rfl, rfl, fun _ => rfl⟩
  | 5 => .inr ⟨.jmp, fun _ => rfl, fun _ => rfl, fun _ => rfl⟩
  | 6 => .inr ⟨.je, fun _ => rfl, fun _ => rfl, fun _ => rfl⟩
  | 7 => .inr ⟨.jne, fun _ => rfl, fun _ => rfl, fun _ => rfl⟩
  | 8 => .inr ⟨.jl, fun _ => rfl, fun _ => rfl, fun _ => rfl⟩
  | 9 => .inr ⟨.jle, fun _ => rfl, fun _ => rfl, fun _ => rfl⟩
  | 10 => .inr ⟨.jg, fun _ => rfl, fun _ => rfl, fun _ => rfl⟩
  | 11 => .inr ⟨.jge, fun _ => rfl, fun _ => rfl, fun _ => rfl⟩
  | 12 => .inl ⟨.not, rfl, rfl, fun _ => rfl⟩
  | 13 => .inl ⟨.neg, rfl, rfl, fun _ => rfl⟩
  | 14 => .inl ⟨.rol, rfl, rfl, fun _ => rfl⟩
  | 15 => .inl ⟨.ror, rfl, rfl, fun _ => rfl⟩
  | 16 => .inr ⟨.shl, fun _ => rfl, fun _ => rfl, fun _ => rfl⟩
  | 17 => .inr ⟨.shr, fun _ => rfl, fun _ => rfl, fun _ => rfl⟩
  | 18 => .inl ⟨.inc, rfl, rfl, fun _ => rfl⟩
  | 19 => .inl ⟨.dec, rfl, rfl, fun _ => rfl⟩
  | 20 => .inl ⟨.and, rfl, rfl, fun _ => rfl⟩
  | 21 => .inl ⟨.or, rfl, rfl, fun _ => rfl⟩
  | 22 => .inl ⟨.xor, rfl, rfl, fun _ => rfl⟩
  | 23 => .inl ⟨.add, rfl, rfl, fun _ => rfl⟩
  | 24 => .inl ⟨.sub, rfl, rfl, fun _ => rfl⟩
  | 25 => .inl ⟨.mul, rfl, rfl, fun _ => rfl⟩
  | 26 => .inl ⟨.div, rfl, rfl, fun _ => rfl⟩
  | 27 => .inl ⟨.prnt, rfl, rfl, fun _ => rfl⟩
  | ⟨_ + 28, h⟩ => absurd h (by omega)

/-- A byte from 28 on has no row in the opcode map (R56). -/
theorem decode_of_ge {op : Byte} (h : 28 ≤ op.toNat) (rest : List Byte) :
    decode (op :: rest) = .error .illegal := by
  rw [decode]
  split
  case h_29 => rfl
  all_goals omega

/-- Everything a byte can be to the decoder: a case distinction that does not ask what follows it. -/
theorem isOpByte_or_isOpiByte_or_ge (op : Byte) :
    (∃ i, IsOpByte op i) ∨ (∃ mk, IsOpiByte op mk) ∨ 28 ≤ op.toNat := by
  by_cases h : op.toNat < 28
  · have hformat := isOpByte_or_isOpiByte_of_fin ⟨op.toNat, h⟩
    rw [BitVec.ofNat_toNat, BitVec.setWidth_eq] at hformat
    exact hformat.imp_right .inl
  · exact .inr (.inr (Nat.not_lt.mp h))

theorem decode_eq_illegal_iff (op : Byte) (rest : List Byte) :
    decode (op :: rest) = .error .illegal ↔ 28 ≤ op.toNat := by
  refine ⟨fun h => ?_, fun h => decode_of_ge h rest⟩
  rcases isOpByte_or_isOpiByte_or_ge op with ⟨i, hop⟩ | ⟨mk, hopi⟩ | hge
  · rw [hop.decode] at h
    cases h
  · rw [hopi.decode] at h
    rcases decodeOperand_cases mk rest with ⟨_, hd⟩ | ⟨imm, rest', _, hd⟩ <;> rw [hd] at h <;> cases h
  · exact hge

/-- What decodes is the opcode byte's instruction: of format OP with nothing more read, or of format
OPI with the operand's eight bytes read. -/
theorem decode_ok_cases {op : Byte} {rest rest' : List Byte} {i : Instr}
    (h : decode (op :: rest) = .ok (i, rest')) :
    i.opcode = op ∧ ((i.operand = none ∧ rest' = rest) ∨
      ∃ imm, i.operand = some imm ∧ rest = wordBytes imm ++ rest') := by
  rcases isOpByte_or_isOpiByte_or_ge op with ⟨j, hop⟩ | ⟨mk, hopi⟩ | hge
  · rw [hop.decode] at h
    cases h
    exact ⟨hop.opcode, .inl ⟨hop.operand, rfl⟩⟩
  · rw [hopi.decode] at h
    rcases decodeOperand_cases mk rest with ⟨_, hd⟩ | ⟨imm, rest'', htake, hd⟩ <;> rw [hd] at h <;> cases h
    exact ⟨hopi.opcode imm, .inr ⟨imm, hopi.operand imm, (takeWord_eq_some_iff rest rest' imm).mp htake⟩⟩
  · rw [decode_of_ge hge] at h
    cases h

/-- Settles O5: R52's table says which of the two formats of `decode_ok_cases` it is, and a byte from
28 on is illegal with any bytes after it. -/
theorem opcodeByteFixesLength : Obligations.OpcodeByteFixesLength := by
  intro op rest
  refine ⟨fun i rest' h => ?_, fun hge other => ?_⟩
  · obtain ⟨rfl, hformat⟩ := decode_ok_cases h
    rw [← opcodeHasOperand_iff, opcodeHasOperand_opcode]
    rcases hformat with ⟨hnone, rfl⟩ | ⟨imm, hsome, rfl⟩
    · simp [hnone]
    · simp [hsome, Nat.add_comm]
  · rw [decode_of_ge hge, decode_of_ge hge]
    exact ⟨rfl, fun ⟨_, hp⟩ => by cases hp⟩

namespace Machine

/-! ### The illegal byte at `ip` (60_exceptions.md R172) -/

/-- The byte the read port gives at `ip` is the one the decoder takes as the opcode (R73). -/
theorem State.fetchBytes_of_memRead1 {s : State} {op : Byte} (hrun : s.status = .running)
    (hop : s.memRead1 s.ip.toNat = .ok op) : s.fetchBytes = op :: s.readBytes (s.ip.toNat + 1) 8 := by
  rw [State.memRead1_of_lt ((State.status_eq_running_iff s).mp hrun).2] at hop
  cases hop
  exact State.fetchBytes_of_running hrun

theorem step_of_fetch_raises {s : State} {k : FaultKind} (hrun : s.status = .running)
    (hfetch : s.fetch = .raises k) : step s = .next (s.raise k) := by
  simp only [step, hrun, hfetch]

theorem step_of_decode_illegal {s : State} (hrun : s.status = .running)
    (hd : decode s.fetchBytes = .error .illegal) : step s = .next (s.raise .invalidOpcode) :=
  step_of_fetch_raises hrun (by simp only [State.fetch, hd])

/-- Settles O4: `decode_eq_illegal_iff`, then the step at such a byte takes the fault from the lookup,
before the stack is examined. -/
theorem bytesFrom28AreIllegal : Obligations.BytesFrom28AreIllegal := by
  refine ⟨decode_eq_illegal_iff, fun s op hrun hop hge => ?_⟩
  have hd : decode s.fetchBytes = .error .illegal := by
    rw [State.fetchBytes_of_memRead1 hrun hop, decode_of_ge hge]
  exact ⟨_, step_of_decode_illegal hrun hd, s.raise_fault .invalidOpcode⟩

end Machine

end Sys2Proof

namespace Sys2Proof

/-! ### The operand after its opcode byte (30_encoding.md R53) -/

theorem decodeOperand_wordBytes (mk : Word → Instr) (w : Word) (rest : List Byte) :
    decodeOperand mk (wordBytes w ++ rest) = .ok (mk w, rest) := by
  rw [decodeOperand, (takeWord_eq_some_iff _ rest w).mpr rfl]

theorem decodeOperand_of_length_lt (mk : Word → Instr) {bs : List Byte} (h : bs.length < 8) :
    decodeOperand mk bs = .error .truncated := by
  rw [decodeOperand, (takeWord_eq_none_iff bs).mpr h]

/-- R52's ten bytes are of format OPI: a byte of format OP has no operand, and one from 28 on is not
in the table. -/
theorem exists_isOpiByte_of_hasOperand {op : Byte} (h : Machine.opcodeHasOperand op = true) :
    ∃ mk, IsOpiByte op mk := by
  rcases isOpByte_or_isOpiByte_or_ge op with ⟨i, hop⟩ | hopi | hge
  · have hoperand := opcodeHasOperand_opcode i
    rw [hop.opcode, hop.operand, h] at hoperand
    cases hoperand
  · exact hopi
  · have hmem := (opcodeHasOperand_iff op).mp h
    simp only [List.mem_cons, List.not_mem_nil, or_false] at hmem
    omega

namespace Machine

/-! ### The operand fetch (40_dispatch_loop.md R75) -/

theorem step_of_decode_ok {s : State} {i : Instr} {rest : List Byte} (hrun : s.status = .running)
    (hd : decode s.fetchBytes = .ok (i, rest)) : step s = exec i s := by
  simp only [step, hrun, State.fetch, hd]

theorem step_of_decode_truncated {s : State} (hrun : s.status = .running)
    (hd : decode s.fetchBytes = .error .truncated) : step s = .next (s.raise .truncatedOperand) :=
  step_of_fetch_raises hrun (by simp only [State.fetch, hd])

/-- Settles O8: the fetched bytes are the opcode byte and the bytes `MemRead(ip + 1, 8)` asks for, so
the decoder finds that read's word, or fewer than eight bytes. -/
theorem operandIsFetchedOrTruncated : Obligations.OperandIsFetchedOrTruncated := by
  intro s op hrun hop hmem
  obtain ⟨mk, hopi⟩ := exists_isOpiByte_of_hasOperand ((opcodeHasOperand_iff op).mpr hmem)
  have hd : decode s.fetchBytes = decodeOperand mk (s.readBytes (s.ip.toNat + 1) 8) := by
    rw [State.fetchBytes_of_memRead1 hrun hop, hopi.decode]
  refine ⟨fun hinside => ?_, fun houtside => ?_⟩
  · obtain ⟨w, hw⟩ := State.exists_memRead8_of_le (s := s) (a := s.ip.toNat + 1) (by omega)
    rw [(s.memRead8_eq_ok_iff _ w).mp hw, ← List.append_nil (wordBytes w), decodeOperand_wordBytes] at hd
    exact ⟨mk w, w, hopi.opcode w, hopi.operand w, hw, step_of_decode_ok hrun hd⟩
  · rw [decodeOperand_of_length_lt mk (by rw [State.readBytes_length]; omega)] at hd
    exact ⟨_, step_of_decode_truncated hrun hd, s.raise_fault .truncatedOperand⟩

/-! ### The depth an instruction needs (40_dispatch_loop.md R74)

`need(op)` is a property of the shared operation through which an instruction reaches the stack. -/

/-- From `s` to `t` no EmptyStack was raised: `fault` is as it was, or `t` took another fault. -/
def RaisesNoEmptyStack (s t : State) : Prop :=
  t.fault = s.fault ∨ ∃ k, k ≠ .emptyStack ∧ t = s.raise k

/-- `f` raises EmptyStack at a depth below `n`, and from `n` on it answers next without raising it. -/
structure NeedsDepth (n : Nat) (f : State → Host.Outcome State Fault Refusal) : Prop where
  tooShallow : ∀ s, s.stack.length < n → f s = .next (s.raise .emptyStack)
  deepEnough : ∀ s, n ≤ s.stack.length → ∃ t, f s = .next t ∧ RaisesNoEmptyStack s t

theorem needsDepth_zero {f : State → State} (hf : ∀ s, RaisesNoEmptyStack s (f s)) :
    NeedsDepth 0 fun s => .next (f s) where
  tooShallow _ h := absurd h (Nat.not_lt_zero _)
  deepEnough s _ := ⟨f s, rfl, hf s⟩

theorem withTop_needsDepth {k : State → Word → List Word → State}
    (hk : ∀ s x rest, RaisesNoEmptyStack s (k s x rest)) : NeedsDepth 1 fun s => withTop s (k s) where
  tooShallow s h := by
    rw [withTop, List.eq_nil_of_length_eq_zero (Nat.lt_one_iff.mp h)]
  deepEnough s h := by
    obtain ⟨x, rest, hs⟩ := List.exists_cons_of_length_pos h
    exact ⟨k s x rest, by rw [withTop, hs], hk s x rest⟩

theorem withTopTwo_needsDepth {k : State → Word → Word → List Word → State}
    (hk : ∀ s x y rest, RaisesNoEmptyStack s (k s x y rest)) :
    NeedsDepth 2 fun s => withTopTwo s (k s) where
  tooShallow s h := by
    rw [withTopTwo]
    split
    case h_1 x y rest hs => simp [hs] at h
    case h_2 => rfl
  deepEnough s h := by
    match hs : s.stack with
    | [] | [_] => simp [hs] at h
    | x :: y :: rest => exact ⟨k s x y rest, by rw [withTopTwo, hs], hk s x y rest⟩

theorem raisesNoEmptyStack_unlessFull {s t : State} (h : t.fault = s.fault) :
    RaisesNoEmptyStack s (unlessFull s t) := by
  rcases unlessFull_cases s t with ⟨_, hfull⟩ | ⟨_, hroom⟩
  · exact .inr ⟨.stackOverflow, by decide, hfull⟩
  · exact .inl (by rw [hroom, h])

theorem replaceTop_needsDepth (f : Word → Word) : NeedsDepth 1 (replaceTop f) :=
  withTop_needsDepth fun _ _ _ => .inl rfl

theorem replaceTopOpi_needsDepth (f : Word → Word) : NeedsDepth 1 (replaceTopOpi f) :=
  withTop_needsDepth fun _ _ _ => .inl rfl

theorem combineTopTwo_needsDepth (f : Word → Word → Word) : NeedsDepth 2 (combineTopTwo f) :=
  withTopTwo_needsDepth fun _ _ _ _ => .inl rfl

theorem conditionalJump_needsDepth (taken : Word → Bool) (imm : Word) :
    NeedsDepth 1 (conditionalJump taken imm) :=
  withTop_needsDepth fun _ _ _ => .inl (by split <;> rfl)

theorem execPush_needsDepth (imm : Word) : NeedsDepth 0 (execPush imm) :=
  needsDepth_zero fun _ => raisesNoEmptyStack_unlessFull rfl

theorem execDup_needsDepth : NeedsDepth 1 execDup :=
  withTop_needsDepth fun _ _ _ => raisesNoEmptyStack_unlessFull rfl

/-- DIV looks at the divisor only when both operands are there (R177). -/
theorem execDiv_needsDepth : NeedsDepth 2 execDiv :=
  withTopTwo_needsDepth fun s x y rest => by
    by_cases hx : x.toInt = 0
    · exact .inr ⟨.divisionByZero, by decide, if_pos hx⟩
    · exact .inl (by rw [if_neg hx]; rfl)

/-- PRNT needs nothing: on an empty stack it emits the placeholder event (45_output.md R160). -/
theorem execPrnt_needsDepth : NeedsDepth 0 execPrnt where
  tooShallow _ h := absurd h (Nat.not_lt_zero _)
  deepEnough s _ := by
    rw [execPrnt]
    split <;> exact ⟨_, rfl, .inl rfl⟩

/-- R74's table, row by row: `need` of the opcode byte is the depth the instruction's operation needs. -/
theorem exec_needsDepth (i : Instr) : NeedsDepth (opcodeNeed i.opcode) (exec i) :=
  match i with
  | .nop => needsDepth_zero fun _ => .inl rfl
  | .push imm => execPush_needsDepth imm
  | .dup => execDup_needsDepth
  | .pop => withTop_needsDepth fun _ _ _ => .inl rfl
  | .cmp => combineTopTwo_needsDepth fun b a => compareResult a b
  | .jmp _ => needsDepth_zero fun _ => .inl rfl
  | .je imm => conditionalJump_needsDepth takenE imm
  | .jne imm => conditionalJump_needsDepth takenNE imm
  | .jl imm => conditionalJump_needsDepth takenL imm
  | .jle imm => conditionalJump_needsDepth takenLE imm
  | .jg imm => conditionalJump_needsDepth takenG imm
  | .jge imm => conditionalJump_needsDepth takenGE imm
  | .not => replaceTop_needsDepth notResult
  | .neg => replaceTop_needsDepth negResult
  | .rol => replaceTop_needsDepth rolResult
  | .ror => replaceTop_needsDepth rorResult
  | .shl imm => replaceTopOpi_needsDepth (shlResult imm)
  | .shr imm => replaceTopOpi_needsDepth (shrResult imm)
  | .inc => replaceTop_needsDepth incResult
  | .dec => replaceTop_needsDepth decResult
  | .and => combineTopTwo_needsDepth andResult
  | .or => combineTopTwo_needsDepth orResult
  | .xor => combineTopTwo_needsDepth xorResult
  | .add => combineTopTwo_needsDepth addResult
  | .sub => combineTopTwo_needsDepth subResult
  | .mul => combineTopTwo_needsDepth mulResult
  | .div => execDiv_needsDepth
  | .prnt => execPrnt_needsDepth

/-- Settles O29: both directions are `exec_needsDepth`; a deep enough stack leaves `fault` empty or
with another kind. -/
theorem emptyStackExactlyWhenTooShallow : Obligations.EmptyStackExactlyWhenTooShallow := by
  intro i s
  refine ⟨(exec_needsDepth i).tooShallow s, fun hdeep hnone t r hexec hr => ?_⟩
  obtain ⟨t', hnext, hfault⟩ := (exec_needsDepth i).deepEnough s hdeep
  rw [hexec] at hnext
  cases hnext
  rcases hfault with hsame | ⟨k, hk, rfl⟩
  · rw [hsame, hnone] at hr
    cases hr
  · cases hr
    exact hk

end Machine

end Sys2Proof

namespace Sys2Proof

/-- An instruction of format OP is its opcode byte alone (30_encoding.md R50). -/
theorem encode_of_operand_eq_none {i : Instr} (h : i.operand = none) : encode i = [i.opcode] := by
  rw [encode, h]

namespace Machine

/-! ### NOP and POP (41_stack_data.md R90, R93) -/

theorem withTop_of_stack_eq_cons {s : State} {x : Word} {rest : List Word} (hs : s.stack = x :: rest)
    (k : Word → List Word → State) : withTop s k = .next (k x rest) := by
  rw [withTop, hs]

theorem exec_nop (s : State) : exec .nop s = .next s.advanceOp := rfl

theorem exec_pop_of_stack_eq_cons {s : State} {x : Word} {rest : List Word} (hs : s.stack = x :: rest) :
    exec .pop s = .next (s.withStack rest).advanceOp :=
  withTop_of_stack_eq_cons hs fun _ rest => (s.withStack rest).advanceOp

/-- Settles O32: NOP has no operand, and its next state is `State.advanceOp` at every depth. -/
theorem nopOnlyAdvances : Obligations.NopOnlyAdvances :=
  ⟨encode_of_operand_eq_none rfl, exec_nop⟩

/-- Settles O35: with a top by `exec_pop_of_stack_eq_cons`; the empty stack is shallower than the one
element POP needs, so that case is O29's. -/
theorem popDiscardsTheTop : Obligations.PopDiscardsTheTop := by
  refine ⟨encode_of_operand_eq_none rfl, fun s x rest hs => exec_pop_of_stack_eq_cons hs, fun s hs => ?_⟩
  have ⟨tooShallow, _⟩ := emptyStackExactlyWhenTooShallow .pop s
  have hneed : opcodeNeed (Instr.opcode .pop) = 1 := by decide
  exact tooShallow (by rw [hneed, hs, List.length_nil]; exact Nat.one_pos)

end Machine

end Sys2Proof

namespace Sys2Proof

namespace Machine

/-! ### CMP (42_compare_jump.md R100) -/

theorem combineTopTwo_of_stack_eq_cons_cons {s : State} {x y : Word} {rest : List Word}
    (hs : s.stack = x :: y :: rest) (f : Word → Word → Word) :
    combineTopTwo f s = .next (s.withStack (f x y :: rest)).advanceOp := by
  rw [combineTopTwo, withTopTwo, hs]

theorem compareResult_toInt_of_lt {a b : Word} (h : a.toInt < b.toInt) : (compareResult a b).toInt = -1 := by
  rw [compareResult, if_pos h]
  decide

theorem compareResult_self_toInt (a : Word) : (compareResult a a).toInt = 0 := by
  rw [compareResult, if_neg (Int.lt_irrefl _), if_pos rfl]
  decide

theorem compareResult_toInt_of_gt {a b : Word} (h : b.toInt < a.toInt) : (compareResult a b).toInt = 1 := by
  rw [compareResult, if_neg (Int.lt_asymm h), if_neg (Int.ne_of_gt h)]
  decide

/-- The second cell is the left operand `a`, the top the right operand `b`. -/
theorem exec_cmp_of_stack_eq_cons_cons {s : State} {a b : Word} {rest : List Word}
    (hs : s.stack = b :: a :: rest) :
    exec .cmp s = .next (s.withStack (compareResult a b :: rest)).advanceOp :=
  combineTopTwo_of_stack_eq_cons_cons hs fun b a => compareResult a b

/-- Settles O36: the pushed word is `compareResult a b`, with one lemma per order of the operands; at
depth 0 or 1 the stack is shallower than the two elements a two-operand instruction needs. -/
theorem cmpPushesTheSignedOrder : Obligations.CmpPushesTheSignedOrder := by
  refine ⟨encode_of_operand_eq_none rfl, fun s a b rest hs => ?_, fun s hshallow => ?_⟩
  · refine ⟨compareResult a b, exec_cmp_of_stack_eq_cons_cons hs, compareResult_toInt_of_lt, ?_,
      compareResult_toInt_of_gt⟩
    rintro rfl
    exact compareResult_self_toInt a
  · exact (combineTopTwo_needsDepth fun b a => compareResult a b).tooShallow s hshallow

end Machine

end Sys2Proof

namespace Sys2Proof

namespace Machine

/-! ### NOT (43_unary_alu.md R120) -/

theorem replaceTop_of_stack_eq_cons {s : State} {x : Word} {rest : List Word}
    (hs : s.stack = x :: rest) (f : Word → Word) :
    replaceTop f s = .next (s.withStack (f x :: rest)).advanceOp :=
  withTop_of_stack_eq_cons hs fun t rest => (s.withStack (f t :: rest)).advanceOp

theorem replaceTop_of_stack_eq_nil {s : State} (hs : s.stack = []) (f : Word → Word) :
    replaceTop f s = .next (s.raise .emptyStack) :=
  (replaceTop_needsDepth f).tooShallow s (by rw [hs, List.length_nil]; exact Nat.one_pos)

theorem notResult_getLsbD (x : Word) {i : Nat} (hi : i < 64) :
    (notResult x).getLsbD i = !x.getLsbD i := by
  rw [notResult, BitVec.getLsbD_not, decide_eq_true hi, Bool.true_and]

/-- The unsigned value of the complement is `2 ^ 64 - 1 - x`, so the sign flips, and with it which of
the two signed readings applies; `-x - 1` never leaves `MIN .. MAX`. -/
theorem notResult_toInt (x : Word) : (notResult x).toInt = -x.toInt - 1 := by
  have hnat : (notResult x).toNat = 2 ^ 64 - 1 - x.toNat := BitVec.toNat_not
  have hlt : x.toNat < 2 ^ 64 := x.isLt
  rw [BitVec.toInt_eq_toNat_cond, BitVec.toInt_eq_toNat_cond, hnat]
  by_cases hsign : 2 * x.toNat < 2 ^ 64
  · rw [if_pos hsign, if_neg (by omega)]
    omega
  · rw [if_neg hsign, if_pos (by omega)]
    omega

theorem exec_not_of_stack_eq_cons {s : State} {x : Word} {rest : List Word} (hs : s.stack = x :: rest) :
    exec .not s = .next (s.withStack (notResult x :: rest)).advanceOp :=
  replaceTop_of_stack_eq_cons hs notResult

/-- Settles O42: the new top is `notResult x`, described by its bits and by its signed value; on the
empty stack a one-operand instruction raises EmptyStack. -/
theorem notComplementsEveryBit : Obligations.NotComplementsEveryBit :=
  ⟨encode_of_operand_eq_none rfl,
    fun _ x _ hs => ⟨notResult x, exec_not_of_stack_eq_cons hs, fun _ => notResult_getLsbD x, notResult_toInt x⟩,
    fun _ hs => replaceTop_of_stack_eq_nil hs notResult⟩

end Machine

end Sys2Proof

namespace Sys2Proof

namespace Machine

/-! ### AND, OR and XOR (44_binary_alu.md R140 to R142) -/

theorem andResult_getLsbD (x y : Word) (i : Nat) :
    (andResult x y).getLsbD i = (x.getLsbD i && y.getLsbD i) := BitVec.getLsbD_and

theorem orResult_getLsbD (x y : Word) (i : Nat) :
    (orResult x y).getLsbD i = (x.getLsbD i || y.getLsbD i) := BitVec.getLsbD_or

theorem xorResult_getLsbD (x y : Word) (i : Nat) :
    (xorResult x y).getLsbD i = (x.getLsbD i ^^ y.getLsbD i) := BitVec.getLsbD_xor

theorem exec_and (s : State) : exec .and s = combineTopTwo andResult s := rfl

theorem exec_or (s : State) : exec .or s = combineTopTwo orResult s := rfl

theorem exec_xor (s : State) : exec .xor s = combineTopTwo xorResult s := rfl

/-- For each of the three, the word that replaces the top two cells combines them bit by bit, if the
function `f` it applies to them does. -/
theorem exists_combineTopTwo_bitwise {f : Word → Word → Word} {bit : Bool → Bool → Bool}
    (hf : ∀ x y i, (f x y).getLsbD i = bit (x.getLsbD i) (y.getLsbD i))
    {s : State} {x y : Word} {rest : List Word} (hs : s.stack = x :: y :: rest) :
    ∃ r : Word, combineTopTwo f s = .next (s.withStack (r :: rest)).advanceOp ∧
      ∀ i, i < 64 → r.getLsbD i = bit (x.getLsbD i) (y.getLsbD i) :=
  ⟨f x y, combineTopTwo_of_stack_eq_cons_cons hs f, fun i _ => hf x y i⟩

/-- Settles O49: each of the three is `combineTopTwo` of a function that works bit by bit; at depth 0
or 1 the stack is shallower than the two elements `combineTopTwo` needs. -/
theorem andOrXorWorkBitByBit : Obligations.AndOrXorWorkBitByBit := by
  refine ⟨encode_of_operand_eq_none rfl, encode_of_operand_eq_none rfl, encode_of_operand_eq_none rfl,
    fun s x y rest hs => ?_, fun s hshallow => ?_⟩
  · rw [exec_and, exec_or, exec_xor]
    exact ⟨exists_combineTopTwo_bitwise andResult_getLsbD hs,
      exists_combineTopTwo_bitwise orResult_getLsbD hs,
      exists_combineTopTwo_bitwise xorResult_getLsbD hs⟩
  · rw [RaisesFault, RaisesFault, RaisesFault, exec_and, exec_or, exec_xor]
    exact ⟨(combineTopTwo_needsDepth andResult).tooShallow s hshallow,
      (combineTopTwo_needsDepth orResult).tooShallow s hshallow,
      (combineTopTwo_needsDepth xorResult).tooShallow s hshallow⟩

end Machine

end Sys2Proof

namespace Sys2Proof

namespace Machine

/-! ### PRNT (45_output.md R160) -/

theorem exec_prnt (s : State) : exec .prnt s = execPrnt s := rfl

theorem exec_prnt_of_stack_eq_cons {s : State} {x : Word} {rest : List Word} (hs : s.stack = x :: rest) :
    exec .prnt s = .next ((s.withStack rest).emit (.val x)).advanceOp := by
  rw [exec_prnt, execPrnt, hs]

theorem exec_prnt_of_stack_eq_nil {s : State} (hs : s.stack = []) :
    exec .prnt s = .next (s.emit .empty).advanceOp := by
  rw [exec_prnt, execPrnt, hs]

/-- Settles O55: PRNT has no operand, and its two next states are those of R160, for a top and for the
empty stack, with `withStack`, `emit` and `advanceOp` written out field by field. -/
theorem prntEmitsTheTopOrThePlaceholder : Obligations.PrntEmitsTheTopOrThePlaceholder :=
  ⟨encode_of_operand_eq_none rfl, fun _ _ _ hs => exec_prnt_of_stack_eq_cons hs,
    fun _ hs => exec_prnt_of_stack_eq_nil hs⟩

end Machine

end Sys2Proof

namespace Sys2Proof

namespace Machine

/-! ### The fault kinds an instruction can raise (60_exceptions.md R171, R175) -/

/-- From `s` to `t` either `fault` is as it was, or `t` took a fault of one of the kinds `ks`. -/
def RaisesAmong (ks : List FaultKind) (s t : State) : Prop :=
  t.fault = s.fault ∨ ∃ k ∈ ks, t = s.raise k

/-- Whatever next state `f` answers, it keeps `fault` or takes one of the kinds `ks`. -/
def RaisesOnly (ks : List FaultKind) (f : State → Host.Outcome State Fault Refusal) : Prop :=
  ∀ s t, f s = .next t → RaisesAmong ks s t

theorem raisesOnly_next {ks : List FaultKind} {g : State → State} (hg : ∀ s, RaisesAmong ks s (g s)) :
    RaisesOnly ks fun s => .next (g s) := by
  intro s t h
  cases h
  exact hg s

/-- EmptyStack by `withTop` itself, the other kinds by its continuation. -/
theorem withTop_raisesOnly {ks : List FaultKind} {k : State → Word → List Word → State}
    (hk : ∀ s x rest, RaisesAmong ks s (k s x rest)) :
    RaisesOnly (.emptyStack :: ks) fun s => withTop s (k s) := by
  intro s t h
  rcases withTop_cases h with ⟨_, hraise⟩ | ⟨x, rest, _, rfl⟩
  · exact .inr ⟨_, List.mem_cons_self, hraise⟩
  · exact (hk s x rest).imp_right fun ⟨k', hmem, hraise⟩ => ⟨k', List.mem_cons_of_mem _ hmem, hraise⟩

theorem unlessFull_raisesAmong {s t : State} (h : t.fault = s.fault) :
    RaisesAmong [.stackOverflow] s (unlessFull s t) := by
  rcases unlessFull_cases s t with ⟨_, hfull⟩ | ⟨_, hroom⟩
  · exact .inr ⟨_, List.mem_cons_self, hfull⟩
  · exact .inl (by rw [hroom, h])

theorem replaceTop_raisesOnly (f : Word → Word) : RaisesOnly [.emptyStack] (replaceTop f) :=
  withTop_raisesOnly fun _ _ _ => .inl rfl

theorem replaceTopOpi_raisesOnly (f : Word → Word) : RaisesOnly [.emptyStack] (replaceTopOpi f) :=
  withTop_raisesOnly fun _ _ _ => .inl rfl

theorem combineTopTwo_raisesOnly (f : Word → Word → Word) : RaisesOnly [.emptyStack] (combineTopTwo f) := by
  intro s t h
  rcases combineTopTwo_cases h with ⟨_, hraise⟩ | ⟨x, y, rest, _, rfl⟩
  · exact .inr ⟨_, List.mem_cons_self, hraise⟩
  · exact .inl rfl

theorem conditionalJump_raisesOnly (taken : Word → Bool) (imm : Word) :
    RaisesOnly [.emptyStack] (conditionalJump taken imm) :=
  withTop_raisesOnly fun _ _ _ => .inl (by split <;> rfl)

theorem toInt_eq_zero_iff {x : Word} : x.toInt = 0 ↔ x = 0#64 := by
  rw [← BitVec.toInt_inj, BitVec.toInt_zero]

/-- DIV: EmptyStack, or DivisionByZero on a zero divisor with nothing removed, or the quotient. -/
theorem execDiv_cases {s s' : State} (h : execDiv s = .next s') :
    (s.stack.length < 2 ∧ s' = s.raise .emptyStack) ∨
      ∃ x y rest, s.stack = x :: y :: rest ∧
        ((x = 0#64 ∧ s' = s.raise .divisionByZero) ∨
          (x ≠ 0#64 ∧ s' = (s.withStack (divResult x y :: rest)).advanceOp)) := by
  rcases withTopTwo_cases h with hshallow | ⟨x, y, rest, hs, rfl⟩
  · exact .inl hshallow
  · refine .inr ⟨x, y, rest, hs, ?_⟩
    by_cases hx : x = 0#64
    · exact .inl ⟨hx, if_pos (toInt_eq_zero_iff.mpr hx)⟩
    · exact .inr ⟨hx, if_neg (mt toInt_eq_zero_iff.mp hx)⟩

theorem execDiv_raisesOnly : RaisesOnly [.emptyStack, .divisionByZero] execDiv := by
  intro s t h
  rcases execDiv_cases h with ⟨_, hraise⟩ | ⟨x, y, rest, _, ⟨_, hraise⟩ | ⟨_, rfl⟩⟩
  · exact .inr ⟨.emptyStack, by decide, hraise⟩
  · exact .inr ⟨.divisionByZero, by decide, hraise⟩
  · exact .inl rfl

theorem execPrnt_raisesOnly : RaisesOnly [] execPrnt := by
  intro s t h
  rw [execPrnt] at h
  split at h <;> cases h <;> exact .inl rfl

/-- R171's column "Raised by", for the three kinds that are raised after the operand is fetched. -/
def raisableKinds : Instr → List FaultKind
  | .nop | .jmp _ | .prnt => []
  | .push _ => [.stackOverflow]
  | .dup => [.emptyStack, .stackOverflow]
  | .div => [.emptyStack, .divisionByZero]
  | _ => [.emptyStack]

/-- R171's table, row by row: an instruction raises no kind but those listed for it. -/
theorem exec_raisesOnly (i : Instr) : RaisesOnly (raisableKinds i) (exec i) :=
  match i with
  | .nop => raisesOnly_next fun _ => .inl rfl
  | .push _ => raisesOnly_next fun _ => unlessFull_raisesAmong rfl
  | .dup => withTop_raisesOnly fun _ _ _ => unlessFull_raisesAmong rfl
  | .pop => withTop_raisesOnly fun _ _ _ => .inl rfl
  | .cmp => combineTopTwo_raisesOnly fun b a => compareResult a b
  | .jmp _ => raisesOnly_next fun _ => .inl rfl
  | .je imm => conditionalJump_raisesOnly takenE imm
  | .jne imm => conditionalJump_raisesOnly takenNE imm
  | .jl imm => conditionalJump_raisesOnly takenL imm
  | .jle imm => conditionalJump_raisesOnly takenLE imm
  | .jg imm => conditionalJump_raisesOnly takenG imm
  | .jge imm => conditionalJump_raisesOnly takenGE imm
  | .not => replaceTop_raisesOnly notResult
  | .neg => replaceTop_raisesOnly negResult
  | .rol => replaceTop_raisesOnly rolResult
  | .ror => replaceTop_raisesOnly rorResult
  | .shl imm => replaceTopOpi_raisesOnly (shlResult imm)
  | .shr imm => replaceTopOpi_raisesOnly (shrResult imm)
  | .inc => replaceTop_raisesOnly incResult
  | .dec => replaceTop_raisesOnly decResult
  | .and => combineTopTwo_raisesOnly andResult
  | .or => combineTopTwo_raisesOnly orResult
  | .xor => combineTopTwo_raisesOnly xorResult
  | .add => combineTopTwo_raisesOnly addResult
  | .sub => combineTopTwo_raisesOnly subResult
  | .mul => combineTopTwo_raisesOnly mulResult
  | .div => execDiv_raisesOnly
  | .prnt => execPrnt_raisesOnly

/-- The kind of a fault that `exec` recorded on an unfaulted state is one listed for the instruction. -/
theorem exec_fault_kind_mem {i : Instr} {s t : State} {r : FaultRecord} (hnone : s.fault = none)
    (hexec : exec i s = .next t) (hr : t.fault = some r) : r.kind ∈ raisableKinds i := by
  rcases exec_raisesOnly i s t hexec with hsame | ⟨k, hk, rfl⟩
  · rw [hsame, hnone] at hr
    cases hr
  · cases hr
    exact hk

/-- R175, "No other instruction raises it": no row but DIV's can match, its list lacking the kind. -/
theorem eq_div_of_divisionByZero_mem : (i : Instr) → .divisionByZero ∈ raisableKinds i → i = .div
  | .div, _ => rfl

/-! ### DIV on a zero divisor (60_exceptions.md R175) -/

theorem withTopTwo_of_stack_eq_cons_cons {s : State} {x y : Word} {rest : List Word}
    (hs : s.stack = x :: y :: rest) (k : Word → Word → List Word → State) :
    withTopTwo s k = .next (k x y rest) := by
  rw [withTopTwo, hs]

theorem exec_div (s : State) : exec .div s = execDiv s := rfl

theorem exec_div_of_zero_top {s : State} {y : Word} {rest : List Word} (hs : s.stack = 0#64 :: y :: rest) :
    exec .div s = .next (s.raise .divisionByZero) := by
  rw [exec_div, execDiv, withTopTwo_of_stack_eq_cons_cons hs, if_pos BitVec.toInt_zero]

/-- DIV on an unfaulted state records DivisionByZero only with a zero on top of a second cell. -/
theorem zero_top_of_exec_div {s t : State} {r : FaultRecord} (hnone : s.fault = none)
    (hexec : exec .div s = .next t) (hr : t.fault = some r) (hkind : r.kind = .divisionByZero) :
    ∃ y rest, s.stack = 0#64 :: y :: rest := by
  rcases execDiv_cases hexec with ⟨_, rfl⟩ | ⟨x, y, rest, hs, ⟨rfl, _⟩ | ⟨_, rfl⟩⟩
  · cases hr
    cases hkind
  · exact ⟨y, rest, hs⟩
  · rw [State.advanceOp_fault, State.withStack_fault, hnone] at hr
    cases hr

/-- Settles O30: a zero on top of a second cell is the fault branch of DIV; conversely DIV alone has
DivisionByZero among its kinds, and `execDiv_cases` gives the stack. -/
theorem divisionByZeroExactlyForDiv : Obligations.DivisionByZeroExactlyForDiv := by
  refine ⟨fun s y rest hs => ⟨_, exec_div_of_zero_top hs, s.raise_fault .divisionByZero⟩,
    fun i s t r hnone hexec hr hkind => ?_⟩
  have hdiv : i = .div := eq_div_of_divisionByZero_mem i (hkind ▸ exec_fault_kind_mem hnone hexec hr)
  subst hdiv
  exact ⟨rfl, zero_top_of_exec_div hnone hexec hr hkind⟩

end Machine

end Sys2Proof

namespace Sys2Proof

/-! ### Encoding and decoding are inverse (30_encoding.md R50, R53, R54) -/

/-- Format OPI (30_encoding.md R50): the opcode byte, then the operand's eight bytes. -/
theorem encode_of_operand_eq_some {i : Instr} {imm : Word} (h : i.operand = some imm) :
    encode i = i.opcode :: wordBytes imm := by
  rw [encode, h]

/-- R54's table read from the instruction: its own opcode byte decodes to it alone, or to its
constructor with the operand read next. -/
theorem isOpByte_or_isOpiByte_opcode (i : Instr) :
    IsOpByte i.opcode i ∨ ∃ mk imm, i = mk imm ∧ IsOpiByte i.opcode mk :=
  match i with
  | .nop => .inl ⟨rfl, rfl, fun _ => rfl⟩
  | .push imm => .inr ⟨.push, imm, rfl, fun _ => rfl, fun _ => rfl, fun _ => rfl⟩
  | .dup => .inl ⟨rfl, rfl, fun _ => rfl⟩
  | .pop => .inl ⟨rfl, rfl, fun _ => rfl⟩
  | .cmp => .inl ⟨rfl, rfl, fun _ => rfl⟩
  | .jmp imm => .inr ⟨.jmp, imm, rfl, fun _ => rfl, fun _ => rfl, fun _ => rfl⟩
  | .je imm => .inr ⟨.je, imm, rfl, fun _ => rfl, fun _ => rfl, fun _ => rfl⟩
  | .jne imm => .inr ⟨.jne, imm, rfl, fun _ => rfl, fun _ => rfl, fun _ => rfl⟩
  | .jl imm => .inr ⟨.jl, imm, rfl, fun _ => rfl, fun _ => rfl, fun _ => rfl⟩
  | .jle imm => .inr ⟨.jle, imm, rfl, fun _ => rfl, fun _ => rfl, fun _ => rfl⟩
  | .jg imm => .inr ⟨.jg, imm, rfl, fun _ => rfl, fun _ => rfl, fun _ => rfl⟩
  | .jge imm => .inr ⟨.jge, imm, rfl, fun _ => rfl, fun _ => rfl, fun _ => rfl⟩
  | .not => .inl ⟨rfl, rfl, fun _ => rfl⟩
  | .neg => .inl ⟨rfl, rfl, fun _ => rfl⟩
  | .rol => .inl ⟨rfl, rfl, fun _ => rfl⟩
  | .ror => .inl ⟨rfl, rfl, fun _ => rfl⟩
  | .shl imm => .inr ⟨.shl, imm, rfl, fun _ => rfl, fun _ => rfl, fun _ => rfl⟩
  | .shr imm => .inr ⟨.shr, imm, rfl, fun _ => rfl, fun _ => rfl, fun _ => rfl⟩
  | .inc => .inl ⟨rfl, rfl, fun _ => rfl⟩
  | .dec => .inl ⟨rfl, rfl, fun _ => rfl⟩
  | .and => .inl ⟨rfl, rfl, fun _ => rfl⟩
  | .or => .inl ⟨rfl, rfl, fun _ => rfl⟩
  | .xor => .inl ⟨rfl, rfl, fun _ => rfl⟩
  | .add => .inl ⟨rfl, rfl, fun _ => rfl⟩
  | .sub => .inl ⟨rfl, rfl, fun _ => rfl⟩
  | .mul => .inl ⟨rfl, rfl, fun _ => rfl⟩
  | .div => .inl ⟨rfl, rfl, fun _ => rfl⟩
  | .prnt => .inl ⟨rfl, rfl, fun _ => rfl⟩

theorem decode_encode (i : Instr) (rest : List Byte) : decode (encode i ++ rest) = .ok (i, rest) := by
  rcases isOpByte_or_isOpiByte_opcode i with hop | ⟨mk, imm, rfl, hopi⟩
  · rw [encode_of_operand_eq_none hop.operand, List.singleton_append, hop.decode]
  · rw [encode_of_operand_eq_some (hopi.operand imm), List.cons_append, hopi.decode, decodeOperand_wordBytes]

/-- Settles O1: R59 leaves no operand out, so `decode_encode` needs no premise. -/
theorem decodeInvertsEncode : Obligations.DecodeInvertsEncode :=
  fun i rest _ => decode_encode i rest

/-- R59: no instruction is refused. -/
theorem Instr.wellFormed_eq_true (i : Instr) : i.wellFormed = true := by
  cases i <;> rfl

/-- Settles O2: `decode_ok_cases` gives the opcode byte and, by format, the operand's bytes. -/
theorem encodeInvertsDecode : Obligations.EncodeInvertsDecode := by
  rintro (_ | ⟨op, bs⟩) i rest h
  · cases h
  · refine ⟨?_, i.wellFormed_eq_true⟩
    obtain ⟨rfl, ⟨hnone, rfl⟩ | ⟨imm, hsome, rfl⟩⟩ := decode_ok_cases h
    · rw [encode_of_operand_eq_none hnone, List.singleton_append]
    · rw [encode_of_operand_eq_some hsome, List.cons_append]

/-- Settles O3: the bytes written out are what `encode` gives, with nothing after them. -/
theorem writtenOutBytesDecode : Obligations.WrittenOutBytesDecode :=
  ⟨decode_encode .nop [], decode_encode (.push 43#64) [], decode_encode (.jmp 53#64) [],
    decode_encode (.shl 4#64) [], decode_encode .sub [], decode_encode .prnt []⟩

namespace Machine

/-! ### Reading the buffer (20_memory.md R30, R35) -/

theorem State.memRead8_of_lt {s : State} {a : Nat} (h : s.len < a + 8) :
    s.memRead8 a = .error .outsideBuffer := by
  have hnone : takeWord (s.readBytes a 8) = none := by
    rw [takeWord_eq_none_iff, State.readBytes_length]
    omega
  rw [State.memRead8, hnone]

/-- Settles O7: each of the two reads on either side of its own bound. -/
theorem readsAnswerInsideTheBufferOnly : Obligations.ReadsAnswerInsideTheBufferOnly := fun _ _ =>
  ⟨fun h => ⟨_, State.memRead1_of_lt h⟩, fun h => State.memRead1_of_le (Nat.le_of_lt_succ h),
    State.exists_memRead8_of_le, State.memRead8_of_lt⟩

theorem State.memRead1_eq_ok_iff (s : State) (a : Nat) (b : Byte) :
    s.memRead1 a = .ok b ↔ a < s.len ∧ s.prog.read a = b := by
  by_cases h : a < s.len
  · simp [State.memRead1_of_lt h, h]
  · simp [State.memRead1_of_le (Nat.not_lt.mp h), h]

/-- Bytes read one by one are the first of those `readBytes` finds. -/
theorem State.readBytes_eq_append {s : State} {a : Nat} {bs : List Byte}
    (h : ∀ k, (hk : k < bs.length) → s.memRead1 (a + k) = .ok bs[k]) (n : Nat) :
    s.readBytes a (bs.length + n) = bs ++ s.readBytes (a + bs.length) n := by
  induction bs generalizing a with
  | nil => simp
  | cons b bs ih =>
    obtain ⟨hlt, hb⟩ := (s.memRead1_eq_ok_iff a b).mp (h 0 (Nat.zero_lt_succ _))
    have htail : ∀ k, (hk : k < bs.length) → s.memRead1 (a + 1 + k) = .ok bs[k] := by
      intro k hk
      rw [Nat.add_assoc, Nat.add_comm 1 k]
      exact h (k + 1) (Nat.succ_lt_succ hk)
    rw [List.length_cons, Nat.add_right_comm, State.readBytes_succ hlt, hb, ih htail, List.cons_append,
      Nat.add_assoc, Nat.add_comm 1]

theorem encode_length_pos (i : Instr) : 0 < (encode i).length := Nat.zero_lt_succ _

theorem encode_length_le (i : Instr) : (encode i).length ≤ 9 := by
  obtain ⟨_, _, hlen⟩ := opcodeTable_statement i
  rw [hlen]
  split <;> decide

/-- Settles O9: the step is `exec` of the decoded instruction with nothing around it. -/
theorem stepRunsTheDecodedInstruction : Obligations.StepRunsTheDecodedInstruction :=
  fun _ _ _ => step_of_decode_ok

/-- Settles O10: the fetched bytes begin with `encode i`, which `decode_encode` reads whatever
follows. -/
theorem stepRunsTheInstructionEncodedAtIp : Obligations.StepRunsTheInstructionEncodedAtIp := by
  intro s i hnone hbytes
  obtain ⟨hip, _⟩ := (s.memRead1_eq_ok_iff _ _).mp (hbytes 0 (encode_length_pos i))
  have hfetch := State.readBytes_eq_append hbytes (9 - (encode i).length)
  rw [Nat.add_sub_cancel' (encode_length_le i)] at hfetch
  have hd := decode_encode i (s.readBytes (s.ip.toNat + (encode i).length) (9 - (encode i).length))
  rw [← hfetch] at hd
  exact step_of_decode_ok (s.status_eq_running_iff.mpr ⟨hnone, hip⟩) hd

/-! ### Placing an instruction (log 7) -/

theorem Memory.read_writeBytes_of_lt (bs : List Byte) (m : Memory) {a c : Nat} (h : c < a) :
    (m.writeBytes a bs).read c = m.read c := by
  induction bs generalizing m a with
  | nil => rfl
  | cons b bs ih =>
    rw [Memory.writeBytes, ih _ (Nat.lt_succ_of_lt h), Memory.read_write_other m (Nat.ne_of_lt h)]

theorem Memory.read_writeBytes {m : Memory} (hwf : m.wf = true) (a : Nat) (bs : List Byte) {k : Nat}
    (hk : k < bs.length) : (m.writeBytes a bs).read (a + k) = bs[k] := by
  induction bs generalizing m a k with
  | nil => cases hk
  | cons b bs ih =>
    have hwrite := Memory.write_wf hwf a b
    cases k with
    | zero =>
      exact (Memory.read_writeBytes_of_lt bs _ (Nat.lt_succ_self a)).trans (Memory.read_write_same hwf a b)
    | succ k =>
      have hshift : a + (k + 1) = a + 1 + k := by omega
      rw [Memory.writeBytes, hshift, List.getElem_cons_succ]
      exact ih hwrite (a + 1) (Nat.lt_of_succ_lt_succ hk)

/-- The next fetch finds the nine bytes placed, the buffer's listing being canonical. -/
theorem State.fetchBytes_placeNext {s : State} (hwf : s.prog.wf = true) {bs : List Byte}
    (hlen : bs.length = 9) : (s.placeNext bs).fetchBytes = bs := by
  have hbytes : ∀ k, (hk : k < bs.length) →
      (s.placeNext bs).memRead1 ((s.placeNext bs).ip.toNat + k) = .ok bs[k] := by
    intro k hk
    rw [State.memRead1_eq_ok_iff, State.placeNext_ip, State.placeNext_len, State.placeNext_prog]
    exact ⟨by omega, Memory.read_writeBytes hwf _ bs hk⟩
  have hread := State.readBytes_eq_append hbytes 0
  rw [State.readBytes, List.append_nil, Nat.add_zero, hlen] at hread
  exact hread

theorem State.status_placeNext (s : State) (bs : List Byte) : (s.placeNext bs).status = .running := by
  rw [State.status_eq_running_iff, State.placeNext_ip, State.placeNext_len]
  exact ⟨s.placeNext_fault bs, by omega⟩

theorem decodeTableWord_eq_some {nbits w : Nat} {i : Instr} (h : decodeTableWord nbits w = some i) :
    ∃ rest, decode (tableBytes nbits w) = .ok (i, rest) := by
  rw [decodeTableWord] at h
  split at h
  next j rest hd =>
    cases h
    exact ⟨rest, hd⟩
  next => cases h

/-- Settles O11: the placed state is Running and fetches exactly the table word's bytes. -/
theorem fetchWordRunsNext : Obligations.FetchWordRunsNext := by
  intro s nbits w i hwf hdecode
  obtain ⟨rest, hd⟩ := decodeTableWord_eq_some hdecode
  rw [← State.fetchBytes_placeNext hwf (tableBytes_length nbits w)] at hd
  exact ⟨step_of_decode_ok (s.status_placeNext _) hd, s.placeNext_stack _, s.placeNext_out _,
    s.placeNext_stackDepth _⟩

end Machine

end Sys2Proof

namespace Sys2Proof

namespace Machine

/-! ### PUSH and DUP, and the full stack (41_stack_data.md R91, R92; 60_exceptions.md R176) -/

theorem State.full_eq_false_iff (s : State) :
    s.full = false ↔ ∀ d, s.stackDepth = some d → s.stack.length + 1 ≤ d := by
  rw [← Bool.not_eq_true, State.full_iff]
  simp only [not_exists, not_and, Nat.not_lt]

theorem unlessFull_of_full {s : State} (h : s.full = true) (t : State) :
    unlessFull s t = s.raise .stackOverflow := if_pos h

theorem unlessFull_of_not_full {s : State} (h : s.full = false) (t : State) : unlessFull s t = t :=
  if_neg (Bool.eq_false_iff.mp h)

theorem exec_push (v : Word) (s : State) :
    exec (.push v) s = .next (unlessFull s (s.push v).advanceOpi) := rfl

theorem exec_dup_of_stack_eq_cons {s : State} {x : Word} {rest : List Word} (hs : s.stack = x :: rest) :
    exec .dup s = .next (unlessFull s (s.push x).advanceOp) :=
  withTop_of_stack_eq_cons hs fun t _ => unlessFull s (s.push t).advanceOp

/-- Settles O33: with room PUSH is `State.push`, then `State.advanceOpi`. -/
theorem pushAddsItsOperand : Obligations.PushAddsItsOperand := by
  intro s v hroom
  rw [exec_push, unlessFull_of_not_full (s.full_eq_false_iff.mpr hroom)]
  rfl

/-- Settles O34: with room DUP is `State.push` of the top, then `State.advanceOp`. -/
theorem dupCopiesTheTop : Obligations.DupCopiesTheTop := by
  intro s x rest hs hroom
  rw [exec_dup_of_stack_eq_cons hs, unlessFull_of_not_full (s.full_eq_false_iff.mpr hroom), ← hs]
  rfl

theorem exec_push_of_full (v : Word) {s : State} (h : s.full = true) :
    exec (.push v) s = .next (s.raise .stackOverflow) := by
  rw [exec_push, unlessFull_of_full h]

theorem exec_dup_of_full {s : State} (hs : s.stack ≠ []) (h : s.full = true) :
    exec .dup s = .next (s.raise .stackOverflow) := by
  obtain ⟨x, rest, hs⟩ := List.exists_cons_of_ne_nil hs
  rw [exec_dup_of_stack_eq_cons hs, unlessFull_of_full h]

/-- R176, "No other instruction raises it": only the rows of PUSH and DUP list the kind. -/
theorem eq_push_or_dup_of_stackOverflow_mem :
    (i : Instr) → .stackOverflow ∈ raisableKinds i → (∃ v, i = .push v) ∨ i = .dup
  | .push v, _ => .inl ⟨v, rfl⟩
  | .dup, _ => .inr rfl

theorem full_of_unlessFull_fault {s t : State} {r : FaultRecord} (hnone : t.fault = none)
    (hr : (unlessFull s t).fault = some r) : s.full = true := by
  rcases unlessFull_cases s t with ⟨hfull, _⟩ | ⟨_, hroom⟩
  · exact hfull
  · rw [hroom, hnone] at hr
    cases hr

/-- PUSH raises nothing else, and DUP nothing but EmptyStack before it. -/
theorem full_of_stackOverflow {i : Instr} {s t : State} {r : FaultRecord} (hnone : s.fault = none)
    (hexec : exec i s = .next t) (hr : t.fault = some r) (hkind : r.kind = .stackOverflow) :
    s.full = true := by
  rcases eq_push_or_dup_of_stackOverflow_mem i (hkind ▸ exec_fault_kind_mem hnone hexec hr) with ⟨v, rfl⟩ | rfl
  · cases hexec
    exact full_of_unlessFull_fault (t := (s.push v).advanceOpi) hnone hr
  · rcases withTop_cases hexec with ⟨_, rfl⟩ | ⟨x, _, _, rfl⟩
    · cases hr
      cases hkind
    · exact full_of_unlessFull_fault (t := (s.push x).advanceOp) hnone hr

/-- Settles O31: R176's condition is `State.full`; on a full stack both instructions take the fault
branch, and conversely the kind names the two instructions and the condition. -/
theorem stackOverflowExactlyForPushAndDup : Obligations.StackOverflowExactlyForPushAndDup := by
  refine ⟨fun s d v hdepth hlt => ?_, fun i s t r hnone hexec hr hkind => ⟨?_, ?_⟩⟩
  · have hfull : s.full = true := s.full_iff.mpr ⟨d, hdepth, hlt⟩
    exact ⟨exec_push_of_full v hfull, fun hs => exec_dup_of_full hs hfull⟩
  · exact eq_push_or_dup_of_stackOverflow_mem i (hkind ▸ exec_fault_kind_mem hnone hexec hr)
  · exact s.full_iff.mp (full_of_stackOverflow hnone hexec hr hkind)

/-! ### The order of the checks (60_exceptions.md R177) -/

/-- The checks of R177 that come after the operand is fetched, for the opcode byte `op`. -/
def execFault (op : Byte) (s : State) : Option FaultKind :=
  if s.stack.length < opcodeNeed op then some .emptyStack
  else if op = 0x1A#8 ∧ s.stack.head? = some 0#64 then some .divisionByZero
  else if opcodeGrows op = true ∧ s.full = true then some .stackOverflow
  else none

/-- Where the lookup and the operand fetch succeed, `execFault` is what is left of the order. -/
theorem firstFault_eq_execFault {op : Byte} {s : State} (hdefined : op.toNat ≤ 27)
    (hfetched : opcodeHasOperand op = true → s.ip.toNat + 9 ≤ s.len) : firstFault op s = execFault op s := by
  rw [firstFault, if_neg (Nat.not_lt.mpr hdefined),
    if_neg fun ⟨hoperand, houtside⟩ => Nat.not_lt.mpr (hfetched hoperand) houtside]
  rfl

theorem firstFault_of_ge {op : Byte} {s : State} (h : 28 ≤ op.toNat) :
    firstFault op s = some .invalidOpcode := if_pos h

theorem firstFault_of_truncated {op : Byte} {s : State} (hdefined : op.toNat ≤ 27)
    (hoperand : opcodeHasOperand op = true) (houtside : s.len < s.ip.toNat + 9) :
    firstFault op s = some .truncatedOperand := by
  rw [firstFault, if_neg (Nat.not_lt.mpr hdefined), if_pos ⟨hoperand, houtside⟩]

theorem opcode_toNat_le (i : Instr) : i.opcode.toNat ≤ 27 := by
  obtain ⟨hlt, _, _⟩ := opcodeTable_statement i
  rw [Config.numOpcodes] at hlt
  omega

theorem eq_div_of_opcode_eq : (i : Instr) → i.opcode = 0x1A#8 → i = .div
  | .div, _ => rfl

theorem eq_push_or_dup_of_opcodeGrows :
    (i : Instr) → opcodeGrows i.opcode = true → (∃ v, i = .push v) ∨ i = .dup
  | .push v, _ => .inl ⟨v, rfl⟩
  | .dup, _ => .inr rfl

theorem opcodeGrows_of_push_or_dup {i : Instr} (h : (∃ v, i = .push v) ∨ i = .dup) :
    opcodeGrows i.opcode = true := by
  rcases h with ⟨v, rfl⟩ | rfl <;> rfl

/-- DIV needs two cells, so a zero on top is followed by a second cell. -/
theorem exec_div_of_zero_head {s : State} (hdeep : ¬ s.stack.length < opcodeNeed (Instr.opcode .div))
    (hzero : s.stack.head? = some 0#64) : exec .div s = .next (s.raise .divisionByZero) := by
  have htwo : 2 ≤ s.stack.length := Nat.not_lt.mp hdeep
  match hs : s.stack with
  | [] | [_] => simp [hs] at htwo
  | x :: y :: rest =>
    rw [hs, List.head?_cons, Option.some.injEq] at hzero
    subst hzero
    exact exec_div_of_zero_top hs

theorem exec_of_grows_of_full {i : Instr} {s : State} (hdeep : ¬ s.stack.length < opcodeNeed i.opcode)
    (hgrows : opcodeGrows i.opcode = true) (hfull : s.full = true) :
    exec i s = .next (s.raise .stackOverflow) := by
  rcases eq_push_or_dup_of_opcodeGrows i hgrows with ⟨v, rfl⟩ | rfl
  · exact exec_push_of_full v hfull
  · have hone : 1 ≤ s.stack.length := Nat.not_lt.mp hdeep
    exact exec_dup_of_full (List.ne_nil_of_length_pos hone) hfull

/-- InvalidOpcode comes before there is an instruction (R172): no row lists it. -/
theorem invalidOpcode_notMem_raisableKinds : (i : Instr) → .invalidOpcode ∉ raisableKinds i := nofun

/-- TruncatedOperand comes before there is an instruction (R173): no row lists it. -/
theorem truncatedOperand_notMem_raisableKinds : (i : Instr) → .truncatedOperand ∉ raisableKinds i := nofun

/-- An instruction that passes the checks of R177 records no fault: each kind it could raise is one
whose condition is among the checks. -/
theorem exec_fault_eq_none {i : Instr} {s t : State} (hnone : s.fault = none) (hexec : exec i s = .next t)
    (hdeep : ¬ s.stack.length < opcodeNeed i.opcode)
    (hdivisor : ¬ (i.opcode = 0x1A#8 ∧ s.stack.head? = some 0#64))
    (hroom : ¬ (opcodeGrows i.opcode = true ∧ s.full = true)) : t.fault = none := by
  by_contra hsome
  obtain ⟨r, hr⟩ := Option.ne_none_iff_exists'.mp hsome
  have hmem := exec_fault_kind_mem hnone hexec hr
  match hkind : r.kind with
  | .invalidOpcode => exact invalidOpcode_notMem_raisableKinds i (hkind ▸ hmem)
  | .truncatedOperand => exact truncatedOperand_notMem_raisableKinds i (hkind ▸ hmem)
  | .emptyStack =>
    obtain ⟨_, hdeepEnough⟩ := emptyStackExactlyWhenTooShallow i s
    exact hdeepEnough (Nat.not_lt.mp hdeep) hnone t r hexec hr hkind
  | .divisionByZero =>
    obtain ⟨_, honlyDiv⟩ := divisionByZeroExactlyForDiv
    obtain ⟨rfl, y, rest, hs⟩ := honlyDiv i s t r hnone hexec hr hkind
    exact hdivisor ⟨rfl, by rw [hs, List.head?_cons]⟩
  | .stackOverflow =>
    exact hroom ⟨opcodeGrows_of_push_or_dup (eq_push_or_dup_of_stackOverflow_mem i (hkind ▸ hmem)),
      full_of_stackOverflow hnone hexec hr hkind⟩

/-- `exec` answers next on every unfaulted state, with the fault of the first failing check. -/
theorem exists_exec_fault_eq_execFault (i : Instr) {s : State} (hnone : s.fault = none) :
    ∃ t, exec i s = .next t ∧ t.fault = (execFault i.opcode s).map (fun k => ⟨k, s.ip⟩) := by
  unfold execFault
  split
  next hshallow => exact ⟨_, (exec_needsDepth i).tooShallow s hshallow, rfl⟩
  next hdeep =>
    split
    next hzero =>
      obtain ⟨hdiv, hhead⟩ := hzero
      obtain rfl := eq_div_of_opcode_eq i hdiv
      exact ⟨_, exec_div_of_zero_head hdeep hhead, rfl⟩
    next hdivisor =>
      split
      next hover =>
        obtain ⟨hgrows, hfull⟩ := hover
        exact ⟨_, exec_of_grows_of_full hdeep hgrows hfull, rfl⟩
      next hroom =>
        obtain ⟨t, hexec, _⟩ := (exec_needsDepth i).deepEnough s (Nat.not_lt.mp hdeep)
        exact ⟨t, hexec, exec_fault_eq_none hnone hexec hdeep hdivisor hroom⟩

/-- A step that runs `i`, its operand fetched, records what `firstFault` says. -/
theorem exists_step_fault_of_step_eq_exec {i : Instr} {s : State} (hrun : s.status = .running)
    (hstep : step s = exec i s) (hfetched : opcodeHasOperand i.opcode = true → s.ip.toNat + 9 ≤ s.len) :
    ∃ t, step s = .next t ∧ t.fault = (firstFault i.opcode s).map (fun k => ⟨k, s.ip⟩) := by
  obtain ⟨hnone, _⟩ := s.status_eq_running_iff.mp hrun
  rw [hstep, firstFault_eq_execFault (opcode_toNat_le i) hfetched]
  exact exists_exec_fault_eq_execFault i hnone

/-- Settles O15: a byte of format OP goes straight to `exec`, one of format OPI to O8's two cases, and
one from 28 on to the lookup's fault. -/
theorem firstFailingCheckIsTheFault : Obligations.FirstFailingCheckIsTheFault := by
  intro s op hrun hop
  have hfetch := State.fetchBytes_of_memRead1 hrun hop
  rcases isOpByte_or_isOpiByte_or_ge op with ⟨i, hformat⟩ | ⟨mk, hformat⟩ | hge
  · obtain rfl := hformat.opcode
    exact exists_step_fault_of_step_eq_exec hrun (step_of_decode_ok hrun (by rw [hfetch, hformat.decode]))
      (by simp [opcodeHasOperand_opcode, hformat.operand])
  · have hoperand : opcodeHasOperand op = true := by
      rw [← hformat.opcode 0#64, opcodeHasOperand_opcode, hformat.operand, Option.isSome_some]
    have hdefined : op.toNat ≤ 27 := hformat.opcode 0#64 ▸ opcode_toNat_le _
    obtain ⟨hinside, houtside⟩ :=
      operandIsFetchedOrTruncated s op hrun hop ((opcodeHasOperand_iff op).mp hoperand)
    by_cases hlen : s.ip.toNat + 9 ≤ s.len
    · obtain ⟨i, _, rfl, _, _, hstep⟩ := hinside hlen
      exact exists_step_fault_of_step_eq_exec hrun hstep fun _ => hlen
    · obtain ⟨t, hstep, hfault⟩ := houtside (Nat.not_le.mp hlen)
      exact ⟨t, hstep, by rw [firstFault_of_truncated hdefined hoperand (Nat.not_le.mp hlen), hfault]; rfl⟩
  · exact ⟨_, step_of_decode_illegal hrun (by rw [hfetch, decode_of_ge hge]), by rw [firstFault_of_ge hge]; rfl⟩

/-- Settles O14: on Running states O15 names the next state, the byte at `ip` being readable; elsewhere
nothing changes. -/
theorem stepAlwaysAnswersNext : Obligations.StepAlwaysAnswersNext := by
  intro s
  by_cases hrun : s.status = .running
  · obtain ⟨_, hip⟩ := s.status_eq_running_iff.mp hrun
    obtain ⟨t, hstep, _⟩ := firstFailingCheckIsTheFault s _ hrun (State.memRead1_of_lt hip)
    exact ⟨t, hstep⟩
  · exact ⟨s, step_of_not_running hrun⟩

end Machine

end Sys2Proof

namespace Sys2Proof

namespace Machine

/-! ### What an instruction that takes no fault leaves (10_state.md R15, 40_dispatch_loop.md R76)

Said once for every instruction: a fault's record alone, or `Completes`. The statements about depth,
`ip`, output, buffer and invariant read it off. -/

/-- R76's three classes: past the opcode byte, past the operand, or to the operand. Only the jumps, 5 to
11, go to it, and JMP, 5, never past it. -/
def NextIp (i : Instr) (ip ip' : Word) : Prop :=
  match i.operand with
  | none => ip' = ip + 1#64
  | some imm =>
    (i.opcode.toNat ≠ 5 ∧ ip' = ip + 9#64) ∨ (5 ≤ i.opcode.toNat ∧ i.opcode.toNat ≤ 11 ∧ ip' = imm)

theorem nextIp_op {i : Instr} (h : i.operand = none) (ip : Word) : NextIp i ip (ip + 1#64) := by
  simp [NextIp, h]

theorem nextIp_opi {i : Instr} {imm : Word} (h : i.operand = some imm) (hopcode : i.opcode.toNat ≠ 5)
    (ip : Word) : NextIp i ip (ip + 9#64) := by
  simp [NextIp, h, hopcode]

theorem nextIp_target {i : Instr} {imm : Word} (h : i.operand = some imm)
    (hopcode : 5 ≤ i.opcode.toNat ∧ i.opcode.toNat ≤ 11) (ip : Word) : NextIp i ip imm := by
  simp [NextIp, h, hopcode]

/-- From `s` to `t` instruction `i` took no fault. -/
structure Completes (i : Instr) (s t : State) : Prop where
  depth : t.stack.length = depthAfter i s.stack.length
  room : s.stack.length < t.stack.length → s.full = false
  ip : NextIp i s.ip t.ip
  fault : t.fault = s.fault
  out : t.out = s.out ∨ (i = .prnt ∧ ∃ e, t.out = s.out ++ [e])
  prog : t.prog = s.prog
  len : t.len = s.len
  stackDepth : t.stackDepth = s.stackDepth

/-- From `s` to `t` instruction `i` took a fault, or none. -/
def RaisesOrCompletes (i : Instr) (s t : State) : Prop := (∃ k, t = s.raise k) ∨ Completes i s t

/-- A new stack and a new `ip` are all that any instruction but PRNT leaves. -/
theorem completes_withStack_goto {i : Instr} {s : State} {st : List Word} {ip' : Word}
    (hdepth : st.length = depthAfter i s.stack.length)
    (hroom : s.stack.length < st.length → s.full = false) (hip : NextIp i s.ip ip') :
    Completes i s ((s.withStack st).goto ip') :=
  ⟨hdepth, hroom, hip, rfl, .inl rfl, rfl, rfl, rfl⟩

theorem completes_goto {i : Instr} {s : State} {ip' : Word} (hdepth : ∀ n, depthAfter i n = n)
    (hip : NextIp i s.ip ip') : Completes i s (s.goto ip') :=
  completes_withStack_goto (hdepth _).symm (fun hlt => absurd hlt (Nat.lt_irrefl _)) hip

/-- An instruction that adds an element took StackOverflow, or there was room (R176). -/
theorem unlessFull_raisesOrCompletes {i : Instr} {s : State} {v ip' : Word}
    (hdepth : ∀ n, depthAfter i n = n + 1) (hip : NextIp i s.ip ip') :
    RaisesOrCompletes i s (unlessFull s ((s.push v).goto ip')) := by
  rcases unlessFull_cases s ((s.push v).goto ip') with ⟨_, hraise⟩ | ⟨hroom, hpush⟩
  · exact .inl ⟨_, hraise⟩
  · rw [hpush]
    exact .inr (completes_withStack_goto (hdepth _).symm (fun _ => hroom) hip)

theorem replaceTop_raisesOrCompletes {i : Instr} (hdepth : ∀ n, depthAfter i n = n)
    (hoperand : i.operand = none) {f : Word → Word} {s t : State}
    (h : replaceTop f s = .next t) : RaisesOrCompletes i s t := by
  rcases replaceTop_cases h with ⟨_, hraise⟩ | ⟨x, rest, hs, rfl⟩
  · exact .inl ⟨_, hraise⟩
  · exact .inr (completes_withStack_goto (by simp [hs, hdepth]) (by simp [hs]) (nextIp_op hoperand _))

theorem replaceTopOpi_raisesOrCompletes {i : Instr} {imm : Word} (hdepth : ∀ n, depthAfter i n = n)
    (hoperand : i.operand = some imm) (hopcode : i.opcode.toNat ≠ 5) {f : Word → Word} {s t : State}
    (h : replaceTopOpi f s = .next t) : RaisesOrCompletes i s t := by
  rcases replaceTopOpi_cases h with ⟨_, hraise⟩ | ⟨x, rest, hs, rfl⟩
  · exact .inl ⟨_, hraise⟩
  · exact .inr (completes_withStack_goto (by simp [hs, hdepth]) (by simp [hs])
      (nextIp_opi hoperand hopcode _))

/-- Two cells become one, so the depth falls by one. -/
theorem completes_combine {i : Instr} (hdepth : ∀ n, depthAfter i n = n - 1)
    (hoperand : i.operand = none) {s : State} {x y : Word} {rest : List Word}
    (hs : s.stack = x :: y :: rest) (r : Word) : Completes i s (s.withStack (r :: rest)).advanceOp :=
  completes_withStack_goto (by simp [hs, hdepth]) (by simp [hs]) (nextIp_op hoperand _)

theorem combineTopTwo_raisesOrCompletes {i : Instr} (hdepth : ∀ n, depthAfter i n = n - 1)
    (hoperand : i.operand = none) {f : Word → Word → Word} {s t : State}
    (h : combineTopTwo f s = .next t) : RaisesOrCompletes i s t := by
  rcases combineTopTwo_cases h with ⟨_, hraise⟩ | ⟨x, y, rest, hs, rfl⟩
  · exact .inl ⟨_, hraise⟩
  · exact .inr (completes_combine hdepth hoperand hs _)

/-- A conditional jump is one of the opcodes 6 to 11, so it has both classes of format OPI. -/
theorem conditionalJump_raisesOrCompletes {i : Instr} {imm : Word} (hdepth : ∀ n, depthAfter i n = n)
    (hoperand : i.operand = some imm) (hopcode : 6 ≤ i.opcode.toNat ∧ i.opcode.toNat ≤ 11)
    {taken : Word → Bool} {s t : State} (h : conditionalJump taken imm s = .next t) :
    RaisesOrCompletes i s t := by
  rcases conditionalJump_cases h with ⟨_, hraise⟩ | ⟨_, _, _, ⟨_, rfl⟩ | ⟨_, rfl⟩⟩
  · exact .inl ⟨_, hraise⟩
  · exact .inr (completes_goto hdepth (nextIp_target hoperand (by omega) _))
  · exact .inr (completes_goto hdepth (nextIp_opi hoperand (by omega) _))

theorem execDup_raisesOrCompletes {s t : State} (h : execDup s = .next t) : RaisesOrCompletes .dup s t := by
  rcases withTop_cases h with ⟨_, hraise⟩ | ⟨x, _, _, rfl⟩
  · exact .inl ⟨_, hraise⟩
  · exact unlessFull_raisesOrCompletes (fun _ => rfl) rfl

theorem execPop_raisesOrCompletes {s t : State} (h : execPop s = .next t) : RaisesOrCompletes .pop s t := by
  rcases withTop_cases h with ⟨_, hraise⟩ | ⟨x, rest, hs, rfl⟩
  · exact .inl ⟨_, hraise⟩
  · exact .inr (completes_withStack_goto (by simp [hs, depthAfter]) (by simp [hs]) rfl)

theorem execDiv_raisesOrCompletes {s t : State} (h : execDiv s = .next t) : RaisesOrCompletes .div s t := by
  rcases execDiv_cases h with ⟨_, hraise⟩ | ⟨x, y, rest, hs, ⟨_, hraise⟩ | ⟨_, rfl⟩⟩
  · exact .inl ⟨_, hraise⟩
  · exact .inl ⟨_, hraise⟩
  · exact .inr (completes_combine (fun _ => rfl) rfl hs _)

/-- PRNT takes no fault: it emits the top, or the placeholder event at depth 0 (45_output.md R160). -/
theorem execPrnt_completes {s t : State} (h : execPrnt s = .next t) : Completes .prnt s t := by
  rw [execPrnt] at h
  split at h
  next hs =>
    cases h
    exact ⟨by simp [hs, depthAfter], by simp, rfl, rfl, .inr ⟨rfl, _, rfl⟩, rfl, rfl, rfl⟩
  next v rest hs =>
    cases h
    exact ⟨by simp [hs, depthAfter], by simp [hs], rfl, rfl, .inr ⟨rfl, _, rfl⟩, rfl, rfl, rfl⟩

/-- R15 and R76, row by row. -/
theorem exec_raisesOrCompletes {i : Instr} {s t : State} (h : exec i s = .next t) :
    RaisesOrCompletes i s t :=
  match i with
  | .nop => by cases h; exact .inr (completes_goto (fun _ => rfl) rfl)
  | .push imm => by
    cases h
    exact unlessFull_raisesOrCompletes (fun _ => rfl) (nextIp_opi rfl (by simp [Instr.opcode]) _)
  | .dup => execDup_raisesOrCompletes h
  | .pop => execPop_raisesOrCompletes h
  | .cmp => combineTopTwo_raisesOrCompletes (fun _ => rfl) rfl h
  | .jmp imm => by
    cases h
    exact .inr (completes_goto (fun _ => rfl) (nextIp_target rfl (by simp [Instr.opcode]) _))
  | .je _ => conditionalJump_raisesOrCompletes (fun _ => rfl) rfl (by simp [Instr.opcode]) h
  | .jne _ => conditionalJump_raisesOrCompletes (fun _ => rfl) rfl (by simp [Instr.opcode]) h
  | .jl _ => conditionalJump_raisesOrCompletes (fun _ => rfl) rfl (by simp [Instr.opcode]) h
  | .jle _ => conditionalJump_raisesOrCompletes (fun _ => rfl) rfl (by simp [Instr.opcode]) h
  | .jg _ => conditionalJump_raisesOrCompletes (fun _ => rfl) rfl (by simp [Instr.opcode]) h
  | .jge _ => conditionalJump_raisesOrCompletes (fun _ => rfl) rfl (by simp [Instr.opcode]) h
  | .not => replaceTop_raisesOrCompletes (fun _ => rfl) rfl h
  | .neg => replaceTop_raisesOrCompletes (fun _ => rfl) rfl h
  | .rol => replaceTop_raisesOrCompletes (fun _ => rfl) rfl h
  | .ror => replaceTop_raisesOrCompletes (fun _ => rfl) rfl h
  | .shl _ => replaceTopOpi_raisesOrCompletes (fun _ => rfl) rfl (by simp [Instr.opcode]) h
  | .shr _ => replaceTopOpi_raisesOrCompletes (fun _ => rfl) rfl (by simp [Instr.opcode]) h
  | .inc => replaceTop_raisesOrCompletes (fun _ => rfl) rfl h
  | .dec => replaceTop_raisesOrCompletes (fun _ => rfl) rfl h
  | .and => combineTopTwo_raisesOrCompletes (fun _ => rfl) rfl h
  | .or => combineTopTwo_raisesOrCompletes (fun _ => rfl) rfl h
  | .xor => combineTopTwo_raisesOrCompletes (fun _ => rfl) rfl h
  | .add => combineTopTwo_raisesOrCompletes (fun _ => rfl) rfl h
  | .sub => combineTopTwo_raisesOrCompletes (fun _ => rfl) rfl h
  | .mul => combineTopTwo_raisesOrCompletes (fun _ => rfl) rfl h
  | .div => execDiv_raisesOrCompletes h
  | .prnt => .inr (execPrnt_completes h)

/-- `step_cases` with the two faults of fetch and the instructions' own taken together. -/
theorem step_raises_or_completes {s t : State} (h : step s = .next t) :
    (s.status ≠ .running ∧ t = s) ∨ (s.status = .running ∧ ((∃ k, t = s.raise k) ∨
      ∃ i rest, decode s.fetchBytes = .ok (i, rest) ∧ Completes i s t)) := by
  rcases step_cases h with hidle | ⟨hrun, i, rest, hd, hexec⟩ | ⟨hrun, _, hraise⟩ | ⟨hrun, _, hraise⟩
  · exact .inl hidle
  · rcases exec_raisesOrCompletes hexec with hraise | hcompletes
    · exact .inr ⟨hrun, .inl hraise⟩
    · exact .inr ⟨hrun, .inr ⟨i, rest, hd, hcompletes⟩⟩
  · exact .inr ⟨hrun, .inl ⟨_, hraise⟩⟩
  · exact .inr ⟨hrun, .inl ⟨_, hraise⟩⟩

/-! ### What a step keeps (10_state.md R15, R21, R22; 60_exceptions.md R178) -/

/-- Settles O18: an instruction on too shallow a stack takes a fault, so it did not complete. -/
theorem depthFollowsTheStackEffectTable : Obligations.DepthFollowsTheStackEffectTable := by
  intro i s t hnone hexec hfault
  refine ⟨Nat.le_of_not_lt fun hshallow => ?_, ?_⟩
  · rw [(exec_needsDepth i).tooShallow s hshallow] at hexec
    cases hexec
    cases hfault
  · rcases exec_raisesOrCompletes hexec with ⟨k, rfl⟩ | hcompletes
    · cases hfault
    · exact hcompletes.depth

/-- Settles O16: of the cases of `step_raises_or_completes` only the raised fault sets `fault`. -/
theorem faultsArePrecise : Obligations.FaultsArePrecise := by
  intro s t r hnone hstep hr
  rcases step_raises_or_completes hstep with ⟨_, rfl⟩ | ⟨_, ⟨k, rfl⟩ | ⟨i, _, _, hcompletes⟩⟩
  · rw [hnone] at hr
    cases hr
  · cases hr
    exact ⟨rfl, rfl⟩
  · rw [hcompletes.fault, hnone] at hr
    cases hr

theorem step_keeps_buffer {s t : State} (h : step s = .next t) :
    t.prog = s.prog ∧ t.len = s.len ∧ t.stackDepth = s.stackDepth := by
  rcases step_raises_or_completes h with ⟨_, rfl⟩ | ⟨_, ⟨k, rfl⟩ | ⟨i, _, _, hcompletes⟩⟩
  · exact ⟨rfl, rfl, rfl⟩
  · exact ⟨rfl, rfl, rfl⟩
  · exact ⟨hcompletes.prog, hcompletes.len, hcompletes.stackDepth⟩

theorem State.memRead1_congr {s t : State} (hprog : t.prog = s.prog) (hlen : t.len = s.len) (a : Nat) :
    t.memRead1 a = s.memRead1 a := by
  rw [State.memRead1, State.memRead1, hprog, hlen]

/-- Settles O20: a read depends on the listing and the length alone. -/
theorem bufferAndParametersNeverChange : Obligations.BufferAndParametersNeverChange := by
  intro s t h
  obtain ⟨hprog, hlen, hdepth⟩ := step_keeps_buffer h
  exact ⟨State.memRead1_congr hprog hlen, hprog, hlen, hdepth⟩

/-- The instruction that a Running state decodes has its opcode byte at `ip`. -/
theorem State.memRead1_ip_of_decode {s : State} {i : Instr} {rest : List Byte} (hrun : s.status = .running)
    (hd : decode s.fetchBytes = .ok (i, rest)) : s.memRead1 s.ip.toNat = .ok i.opcode := by
  obtain ⟨_, hip⟩ := s.status_eq_running_iff.mp hrun
  rw [State.fetchBytes_of_running hrun] at hd
  obtain ⟨hopcode, _⟩ := decode_ok_cases hd
  rw [State.memRead1_of_lt hip, hopcode]

/-- Settles O21: only a completed PRNT appends, and its byte is the one at `ip`. -/
theorem outputGrowsOnlyByPrnt : Obligations.OutputGrowsOnlyByPrnt := by
  intro s t h
  rcases step_raises_or_completes h with ⟨_, rfl⟩ | ⟨hrun, ⟨k, rfl⟩ | ⟨i, _, hd, hcompletes⟩⟩
  · exact .inl rfl
  · exact .inl rfl
  · rcases hcompletes.out with hsame | ⟨rfl, happended⟩
    · exact .inl hsame
    · exact .inr ⟨State.memRead1_ip_of_decode hrun hd, happended⟩

/-! ### The next instruction pointer (40_dispatch_loop.md R76) -/

/-- An operand found after the opcode byte is the word the 8-byte read gives, inside the buffer. -/
theorem State.memRead8_of_readBytes_eq_append {s : State} {a : Nat} {w : Word} {rest : List Byte}
    (h : s.readBytes a 8 = wordBytes w ++ rest) : a + 8 ≤ s.len ∧ s.memRead8 a = .ok w := by
  have hlen := congrArg List.length h
  rw [State.readBytes_length, List.length_append, wordBytes_length] at hlen
  refine ⟨by omega, ?_⟩
  rw [State.memRead8, (takeWord_eq_some_iff _ rest w).mpr h]

/-- An advance inside a legal buffer does not wrap. -/
theorem toNat_add_ofNat_of_le {ip : Word} {len k : Nat} (hlegal : len ≤ Config.maxLen)
    (h : ip.toNat + k ≤ len) : (ip + BitVec.ofNat 64 k).toNat = ip.toNat + k := by
  rw [Config.maxLen] at hlegal
  rw [BitVec.toNat_add, BitVec.toNat_ofNat]
  omega

/-- Settles O17: `Completes.ip` for the two formats, the operand having been read inside the buffer. -/
theorem nextIpIsOneOfThree : Obligations.NextIpIsOneOfThree := by
  intro s t op hinv hrun hop hstep hfault
  rcases step_raises_or_completes hstep with ⟨hidle, _⟩ | ⟨_, ⟨k, rfl⟩ | ⟨i, rest, hd, hcompletes⟩⟩
  · exact absurd hrun hidle
  · cases hfault
  · obtain ⟨_, hip⟩ := s.status_eq_running_iff.mp hrun
    have hnext := hcompletes.ip
    rw [State.fetchBytes_of_memRead1 hrun hop] at hd
    obtain ⟨rfl, ⟨hoperand, _⟩ | ⟨imm, hoperand, hbytes⟩⟩ := decode_ok_cases hd
    · have hone := toNat_add_ofNat_of_le (k := 1) hinv.lenLegal hip
      simp only [NextIp, hoperand] at hnext
      rw [opcodeHasOperand_opcode, hoperand, hnext, hone]
      exact ⟨fun _ => ⟨rfl, hip⟩, nofun⟩
    · obtain ⟨hinside, hread⟩ := State.memRead8_of_readBytes_eq_append hbytes
      have hnine := toNat_add_ofNat_of_le (k := 9) hinv.lenLegal (by omega)
      simp only [NextIp, hoperand] at hnext
      rw [opcodeHasOperand_opcode, hoperand]
      refine ⟨nofun, fun _ => ?_⟩
      rcases hnext with ⟨hne, hadvance⟩ | ⟨hge, hle, htarget⟩
      · exact .inl ⟨hne, by rw [hadvance, hnine], by rw [hadvance, hnine]; omega⟩
      · exact .inr ⟨hge, hle, by rw [hread, htarget]⟩

/-! ### The invariant (70_reset_and_hazards.md R208) -/

theorem depthAfter_le (i : Instr) (n : Nat) : depthAfter i n ≤ n + 1 := by
  cases i <;> simp only [depthAfter] <;> omega

/-- A fault is raised from a Running state only, so its record is inside the buffer. -/
theorem Inv.raise {s : State} (hinv : Inv s) (hrun : s.status = .running) (k : FaultKind) :
    Inv (s.raise k) where
  progWf := hinv.progWf
  progBelow := hinv.progBelow
  lenLegal := hinv.lenLegal
  depthLegal := hinv.depthLegal
  depthBound := hinv.depthBound
  faultAt r hr := by
    obtain ⟨_, hip⟩ := s.status_eq_running_iff.mp hrun
    cases hr
    exact ⟨rfl, hip⟩

/-- The stack grows by one at most, and then there was room. -/
theorem Completes.depthBound {i : Instr} {s t : State} (h : Completes i s t) {d : Nat}
    (hd : s.stackDepth = some d) (hbound : s.stack.length ≤ d) : t.stack.length ≤ d := by
  by_cases hgrows : s.stack.length < t.stack.length
  · calc t.stack.length = depthAfter i s.stack.length := h.depth
      _ ≤ s.stack.length + 1 := depthAfter_le i _
      _ ≤ d := s.full_eq_false_iff.mp (h.room hgrows) d hd
  · exact (Nat.not_lt.mp hgrows).trans hbound

theorem Inv.completes {i : Instr} {s t : State} (hinv : Inv s) (hnone : s.fault = none)
    (h : Completes i s t) : Inv t where
  progWf := h.prog ▸ hinv.progWf
  progBelow := by rw [h.prog, h.len, hinv.progBelow]
  lenLegal := h.len ▸ hinv.lenLegal
  depthLegal := h.stackDepth ▸ hinv.depthLegal
  depthBound d hd :=
    have hd' : s.stackDepth = some d := h.stackDepth ▸ hd
    h.depthBound hd' (hinv.depthBound d hd')
  faultAt r hr := by
    rw [h.fault, hnone] at hr
    cases hr

/-- Settles O22: a step changes nothing, records a fault at an `ip` inside the buffer, or completes. -/
theorem stepKeepsInv : Obligations.StepKeepsInv := by
  intro s t hinv hstep
  rcases step_raises_or_completes hstep with ⟨_, rfl⟩ | ⟨hrun, ⟨k, rfl⟩ | ⟨i, _, _, hcompletes⟩⟩
  · exact hinv
  · exact hinv.raise hrun k
  · obtain ⟨hnone, _⟩ := s.status_eq_running_iff.mp hrun
    exact hinv.completes hnone hcompletes

end Machine

end Sys2Proof

namespace Sys2Proof

namespace Machine

/-! ### The run (40_dispatch_loop.md R78, R79) -/

theorem core_run_succ {s t : State} (h : step s = .next t) (k : Nat) :
    Host.Core.run core (k + 1) s = Host.Core.run core k t := by
  have hcore : core.step s = .next t := h
  simp only [Host.Core.run, hcore]

/-- Settles O13: by induction on the number of steps, each of which leaves such a state alone. -/
theorem nothingMovesOutsideRunning : Obligations.NothingMovesOutsideRunning := by
  intro s k hidle
  induction k with
  | zero => rfl
  | succ k ih => rw [core_run_succ (step_of_not_running hidle), ih]

theorem runFor_of_not_running {s : State} (h : s.status ≠ .running) (fuel : Nat) :
    runFor fuel s = .next s := by
  cases fuel with
  | zero => rfl
  | succ fuel =>
    rw [runFor]
    split
    next => rfl
    next => rfl
    next hrun => exact absurd hrun h

theorem runFor_succ_of_running {s t : State} (hrun : s.status = .running) (hstep : step s = .next t)
    (fuel : Nat) : runFor (fuel + 1) s = runFor fuel t := by
  simp only [runFor, hrun, hstep]

/-- Settles O25: while Running both take the same step (O14); after that neither changes the state. -/
theorem runIsRepeatedStep : Obligations.RunIsRepeatedStep := by
  intro fuel
  induction fuel with
  | zero => exact fun _ => rfl
  | succ fuel ih =>
    intro s
    by_cases hrun : s.status = .running
    · obtain ⟨t, hstep⟩ := stepAlwaysAnswersNext s
      rw [runFor_succ_of_running hrun hstep, core_run_succ hstep, ih]
    · exact (runFor_of_not_running hrun _).trans (nothingMovesOutsideRunning s _ hrun).symm

/-- What every step keeps, a run keeps. -/
theorem runFor_keeps {P : State → Prop} (hkeeps : ∀ s t, P s → step s = .next t → P t) (fuel : Nat)
    {s t : State} (hs : P s) (hrun : runFor fuel s = .next t) : P t := by
  rw [runIsRepeatedStep] at hrun
  induction fuel generalizing s with
  | zero =>
    cases hrun
    exact hs
  | succ fuel ih =>
    obtain ⟨u, hstep⟩ := stepAlwaysAnswersNext s
    rw [core_run_succ hstep] at hrun
    exact ih (hkeeps s u hs hstep) hrun

/-! ### Construction (70_reset_and_hazards.md R200 to R202) -/

theorem Memory.ofBytes_below (bs : List Byte) {a len : Nat} (h : a + bs.length ≤ len) :
    (Memory.ofBytes a bs).below len = true := by
  induction bs generalizing a with
  | nil => rfl
  | cons b bs ih =>
    rw [List.length_cons] at h
    have htail : (Memory.ofBytes (a + 1) bs).below len = true := ih (by omega)
    rw [Memory.ofBytes]
    split
    · exact htail
    · rw [Memory.below, List.all_cons, ← Memory.below, htail, Bool.and_true, decide_eq_true_eq]
      omega

theorem Memory.read_ofBytes (bs : List Byte) (a : Nat) {k : Nat} (hk : k < bs.length) :
    (Memory.ofBytes a bs).read (a + k) = bs[k] := by
  induction bs generalizing a k with
  | nil => cases hk
  | cons b bs ih =>
    rw [Memory.ofBytes]
    cases k with
    | zero =>
      split
      next hb => exact (Memory.read_of_lt (Memory.ofBytes_wfFrom bs (a + 1)) (Nat.lt_succ_self a)).trans hb.symm
      next => exact if_pos rfl
    | succ k =>
      have htail := ih (a + 1) (Nat.lt_of_succ_lt_succ hk)
      rw [Nat.add_assoc, Nat.add_comm 1 k] at htail
      split
      next => exact htail
      next => exact (if_neg (by omega)).trans htail

/-- Settles O28: inside the buffer the listing reads as the byte presented, and `L` is its length. -/
theorem presentedBufferIsRead : Obligations.PresentedBufferIsRead := by
  intro p a b
  rw [State.memRead1_eq_ok_iff, State.construct_len, State.construct_prog, List.getElem?_eq_some_iff,
    ← exists_prop]
  refine exists_congr fun ha => ?_
  rw [← Memory.read_ofBytes p.prog 0 ha, Nat.zero_add]

theorem depthLegal_iff (depth : Option Nat) :
    Config.depthLegal depth = true ↔ ∀ d, depth = some d → 0 < d := by
  cases depth <;> simp [Config.depthLegal]

theorem inv_construct {p : Params} (hlen : p.prog.length ≤ Config.maxLen)
    (hdepth : Config.depthLegal p.stackDepth = true) : Inv (State.construct p) where
  progWf := Memory.ofBytes_wf p.prog
  progBelow := Memory.ofBytes_below p.prog (Nat.zero_add _).le
  lenLegal := hlen
  depthLegal := (depthLegal_iff p.stackDepth).mp hdepth
  depthBound d _ := Nat.zero_le d
  faultAt _ hr := by cases hr

theorem inv_construct_of_wellFormed {p : Params} (h : p.wellFormed = true) : Inv (State.construct p) := by
  simp only [Params.wellFormed, Config.lenLegal, Bool.and_eq_true, decide_eq_true_eq] at h
  obtain ⟨⟨hlen, hdepth⟩, _⟩ := h
  exact inv_construct hlen hdepth

/-- Settles O23: reset is construction with the empty buffer and unbounded depth. -/
theorem resetMeetsInv : Obligations.ResetMeetsInv := by
  rw [Obligations.ResetMeetsInv, State.reset_eq_construct []]
  exact inv_construct (Nat.zero_le _) rfl

/-- Settles O24: the invariant together with the two parameters holds at construction, and every step
keeps it. -/
theorem runsOfLegalMachinesMeetInv : Obligations.RunsOfLegalMachinesMeetInv := by
  intro p fuel t hp hrun
  refine runFor_keeps (P := fun u => Inv u ∧ u.len = p.prog.length ∧ u.stackDepth = p.stackDepth)
    ?_ fuel ⟨inv_construct_of_wellFormed hp, rfl, rfl⟩ hrun
  rintro s u ⟨hinv, hlen, hdepth⟩ hstep
  obtain ⟨_, hlen', hdepth'⟩ := step_keeps_buffer hstep
  exact ⟨stepKeepsInv s u hinv hstep, hlen'.trans hlen, hdepth'.trans hdepth⟩

/-- Settles O27: the fields by their lemmas, and the status by whether offset 0 is below `L`. -/
theorem constructionLeavesResetValues : Obligations.ConstructionLeavesResetValues := by
  intro p
  refine ⟨rfl, rfl, rfl, rfl, rfl, ?_, ?_⟩
  · rw [State.status_eq_running_iff]
    simp [List.length_pos_iff]
  · rw [State.status_eq_halted_iff]
    simp

/-! ### The result port (40_dispatch_loop.md R79, R81) -/

/-- The result port by the status and, when Faulted, the record. -/
theorem State.result_cases (s : State) :
    (s.status = .running ∧ s.fault = none ∧ s.result = none) ∨
    (s.status = .halted ∧ s.fault = none ∧ s.result = some .ok) ∨
    (s.status = .faulted ∧ ∃ r, s.fault = some r ∧ s.result = some (.err r)) := by
  unfold State.status State.result
  cases s.fault with
  | some r => simp
  | none => by_cases h : s.ip.toNat < s.len <;> simp [h]

/-- Settles O26: the three cases of the port are those of the status. -/
theorem resultPortFollowsStatus : Obligations.ResultPortFollowsStatus := by
  intro s
  rcases s.result_cases with ⟨hstatus, hfault, hresult⟩ | ⟨hstatus, hfault, hresult⟩ |
    ⟨hstatus, r, hfault, hresult⟩
  · simp [hstatus, hfault, hresult]
  · simp [hstatus, hfault, hresult]
  · simp [hstatus, hfault, hresult]

end Machine

end Sys2Proof

namespace Sys2Proof

namespace Machine

/-! ### CMP with its operands swapped (42_compare_jump.md R100) -/

theorem compareResult_swap_toInt (a b : Word) : (compareResult b a).toInt = -(compareResult a b).toInt := by
  rcases lt_trichotomy a.toInt b.toInt with hlt | heq | hgt
  · rw [compareResult_toInt_of_gt hlt, compareResult_toInt_of_lt hlt]
    rfl
  · rw [BitVec.eq_of_toInt_eq heq, compareResult_self_toInt]
    rfl
  · rw [compareResult_toInt_of_lt hgt, compareResult_toInt_of_gt hgt]

theorem top_of_exec_cmp {s t : State} {a b r : Word} {rest : List Word}
    (h : exec .cmp { s with stack := b :: a :: rest } = .next t) (ht : t.stack = r :: rest) :
    r = compareResult a b := by
  rw [exec_cmp_of_stack_eq_cons_cons rfl] at h
  cases h
  cases ht
  rfl

/-- Settles O37: the two results are `compareResult` of the operands in the two orders. -/
theorem cmpIsAntiSymmetric : Obligations.CmpIsAntiSymmetric := by
  intro s t t' a b r r' rest h h' ht ht'
  rw [top_of_exec_cmp h ht, top_of_exec_cmp h' ht']
  exact compareResult_swap_toInt a b

/-! ### The jumps (42_compare_jump.md R101 to R108) -/

/-- Settles O38: JMP is `State.goto` its operand at every depth. -/
theorem jmpGoesToItsOperand : Obligations.JmpGoesToItsOperand := fun _ _ => rfl

/-- A conditional jump changes `ip` alone, by the condition on the top. -/
theorem conditionalJump_of_stack_eq_cons {s : State} {x : Word} {rest : List Word} (hs : s.stack = x :: rest)
    (taken : Word → Bool) (a : Word) :
    conditionalJump taken a s = .next { s with ip := if taken x then a else s.ip + 9#64 } := by
  rw [conditionalJump, withTop_of_stack_eq_cons hs]
  by_cases hx : taken x
  · rw [if_pos hx, if_pos hx]
    rfl
  · rw [if_neg hx, if_neg hx]
    rfl

/-- Settles O39: `takenE` tests for 0 and `takenNE` for all else. -/
theorem jeAndJneTestForZero : Obligations.JeAndJneTestForZero := by
  intro s a x rest hs
  refine ⟨(conditionalJump_of_stack_eq_cons hs takenE a).trans ?_,
    (conditionalJump_of_stack_eq_cons hs takenNE a).trans ?_⟩
  · simp only [takenE, decide_eq_true_eq]
  · simp only [takenNE, decide_eq_true_eq, ne_eq, ite_not]

/-- Settles O40: `takenL` tests for -1 and `takenLE` for -1 and 0. -/
theorem jlAndJleTestForMinusOne : Obligations.JlAndJleTestForMinusOne := by
  intro s a x rest hs
  refine ⟨(conditionalJump_of_stack_eq_cons hs takenL a).trans ?_,
    (conditionalJump_of_stack_eq_cons hs takenLE a).trans ?_⟩
  · simp only [takenL, decide_eq_true_eq]
  · simp only [takenLE, decide_eq_true_eq]

/-- Settles O41: `takenG` tests for 1 and `takenGE` for 0 and 1. -/
theorem jgAndJgeTestForOne : Obligations.JgAndJgeTestForOne := by
  intro s a x rest hs
  refine ⟨(conditionalJump_of_stack_eq_cons hs takenG a).trans ?_,
    (conditionalJump_of_stack_eq_cons hs takenGE a).trans ?_⟩
  · simp only [takenG, decide_eq_true_eq]
  · simp only [takenGE, decide_eq_true_eq]

/-! ### Results modulo 2^64 (00_scope.md R5) -/

/-- `wrap64 z` is congruent to `z`, which with its range is R5's definition. -/
theorem isWrap64_wrap64 (z : Int) : IsWrap64 (wrap64 z) z := by
  rw [IsWrap64, wrap64, BitVec.toInt_ofInt]
  exact Int.dvd_bmod_sub_self

theorem wrap64_toInt (w : Word) : wrap64 w.toInt = w := BitVec.ofInt_toInt

theorem wrap64_add (a b : Int) : wrap64 (a + b) = wrap64 a + wrap64 b := BitVec.ofInt_add a b

theorem wrap64_mul (a b : Int) : wrap64 (a * b) = wrap64 a * wrap64 b := BitVec.ofInt_mul a b

theorem wrap64_neg (a : Int) : wrap64 (-a) = -wrap64 a := BitVec.ofInt_neg

theorem wrap64_sub (a b : Int) : wrap64 (a - b) = wrap64 a - wrap64 b := by
  rw [Int.sub_eq_add_neg, wrap64_add, wrap64_neg, BitVec.sub_eq_add_neg]

/-! ### The results as operations on 64-bit words (44_binary_alu.md R147) -/

theorem addResult_eq (x y : Word) : addResult x y = y + x := by
  rw [addResult, wrap64_add, wrap64_toInt, wrap64_toInt, BitVec.add_comm]

theorem subResult_eq (x y : Word) : subResult x y = y - x := by
  rw [subResult, wrap64_sub, wrap64_toInt, wrap64_toInt]

theorem mulResult_eq (x y : Word) : mulResult x y = y * x := by
  rw [mulResult, wrap64_mul, wrap64_toInt, wrap64_toInt, BitVec.mul_comm]

/-- R146's quotient of absolute values with the product of the signs is the quotient truncated toward
zero; where the divisor is the larger, both are 0. -/
theorem sign_mul_sign_mul_natAbs_div (y x : Int) :
    y.sign * x.sign * ((y.natAbs / x.natAbs : Nat) : Int) = y.tdiv x := by
  have hquotient : (y.tdiv x).natAbs = y.natAbs / x.natAbs := Int.natAbs_tdiv y x
  rw [← Int.sign_mul_natAbs (y.tdiv x), Int.sign_tdiv, hquotient]
  split
  next hlt => rw [Nat.div_eq_of_lt hlt, Nat.cast_zero, mul_zero, mul_zero]
  next => rfl

theorem divResult_eq (x y : Word) : divResult x y = y.sdiv x := by
  apply BitVec.eq_of_toInt_eq
  rw [divResult, sign_mul_sign_mul_natAbs_div, wrap64, BitVec.toInt_ofInt, BitVec.toInt_sdiv]

theorem negResult_eq (w : Word) : negResult w = -w := by
  rw [negResult, wrap64_neg, wrap64_toInt]

theorem incResult_eq (w : Word) : incResult w = w + 1#64 := by
  rw [incResult, wrap64_add, wrap64_toInt]
  rfl

theorem decResult_eq (w : Word) : decResult w = w - 1#64 := by
  rw [decResult, wrap64_sub, wrap64_toInt]
  rfl

/-- The low six bits of the operand are its value modulo 64 (92 D5). -/
theorem shiftDistance_eq (imm : Word) : shiftDistance imm = imm.toNat % 64 := by
  rw [shiftDistance, BitVec.extractLsb'_toNat, Nat.shiftRight_zero]

/-- Both readings of the operand are the same modulo 64. -/
theorem shiftDistance_eq_toInt (imm : Word) : shiftDistance imm = (imm.toInt % 64).toNat := by
  rw [shiftDistance_eq, BitVec.toInt_eq_toNat_cond]
  split <;> omega

theorem wrap64_two_pow (d : Nat) : wrap64 (2 ^ d) = BitVec.twoPow 64 d := by
  apply BitVec.eq_of_toNat_eq
  rw [wrap64, ← Nat.cast_two, ← Nat.cast_pow, BitVec.ofInt_natCast, BitVec.toNat_ofNat, BitVec.toNat_twoPow]

theorem shlResult_eq (imm w : Word) : shlResult imm w = w <<< (imm.toNat % 64) := by
  rw [shlResult, wrap64_mul, wrap64_toInt, wrap64_two_pow, shiftDistance_eq, BitVec.shiftLeft_eq_mul_twoPow]

theorem fdiv_two_pow (z : Int) (d : Nat) : z.fdiv (2 ^ d) = z / 2 ^ d :=
  Int.fdiv_eq_ediv_of_nonneg z (by positivity)

theorem toInt_sshiftRight_eq_div (w : Word) (d : Nat) : (w.sshiftRight d).toInt = w.toInt / 2 ^ d := by
  rw [BitVec.toInt_sshiftRight, Int.shiftRight_eq_div_pow, Nat.cast_pow, Nat.cast_two]

/-- R125's floor fits 64 bits, being what the arithmetic shift gives. -/
theorem shrResult_eq (imm w : Word) : shrResult imm w = w.sshiftRight (imm.toNat % 64) := by
  rw [shrResult, fdiv_two_pow, shiftDistance_eq, ← toInt_sshiftRight_eq_div, wrap64_toInt]

theorem rolResult_eq (w : Word) : rolResult w = w.rotateLeft 1 := by
  rw [rolResult, BitVec.rotateLeft_def]

theorem rorResult_eq (w : Word) : rorResult w = w.rotateRight 1 := by
  rw [rorResult, BitVec.rotateRight_def]

/-- Settles O54: one equation per result. -/
theorem aluIsTheSixtyFourBitDatapath : Obligations.AluIsTheSixtyFourBitDatapath :=
  ⟨fun x y => ⟨addResult_eq x y, subResult_eq x y, mulResult_eq x y, fun _ => divResult_eq x y⟩,
    fun w imm => ⟨negResult_eq w, incResult_eq w, decResult_eq w, shlResult_eq imm w, shrResult_eq imm w,
      rolResult_eq w, rorResult_eq w⟩⟩

/-! ### The one-operand instructions (43_unary_alu.md R121 to R128) -/

theorem replaceTopOpi_of_stack_eq_cons {s : State} {x : Word} {rest : List Word}
    (hs : s.stack = x :: rest) (f : Word → Word) :
    replaceTopOpi f s = .next (s.withStack (f x :: rest)).advanceOpi :=
  withTop_of_stack_eq_cons hs fun t rest => (s.withStack (f t :: rest)).advanceOpi

theorem negResult_minWord : negResult minWord = minWord := by decide

/-- Settles O43: the new top is `negResult x`. -/
theorem negWraps : Obligations.NegWraps := fun _ x _ hs =>
  ⟨negResult x, replaceTop_of_stack_eq_cons hs negResult, isWrap64_wrap64 _,
    fun hx => hx ▸ negResult_minWord⟩

/-- Settles O48: the new tops are `incResult x` and `decResult x`. -/
theorem incAndDecWrap : Obligations.IncAndDecWrap := fun _ x _ hs =>
  ⟨⟨incResult x, replaceTop_of_stack_eq_cons hs incResult, isWrap64_wrap64 _⟩,
    ⟨decResult x, replaceTop_of_stack_eq_cons hs decResult, isWrap64_wrap64 _⟩⟩

theorem rolResult_getLsbD_of_pos (w : Word) {i : Nat} (hpos : 1 ≤ i) (hi : i < 64) :
    (rolResult w).getLsbD i = w.getLsbD (i - 1) := by
  rw [rolResult_eq, BitVec.getLsbD_rotateLeft, decide_eq_false (by omega), cond_false, decide_eq_true hi,
    Bool.true_and]

theorem rolResult_getLsbD_zero (w : Word) : (rolResult w).getLsbD 0 = w.getLsbD 63 := by
  rw [rolResult_eq, BitVec.getLsbD_rotateLeft]
  rfl

/-- The two halves have no bit in common: the doubled one is even and the other is a single bit. -/
theorem rolResult_toNat (w : Word) : (rolResult w).toNat = 2 * w.toNat % 2 ^ 64 + w.toNat / 2 ^ 63 := by
  have hbit : w.toNat / 2 ^ 63 < 2 ^ 1 := by have := w.isLt; omega
  have hdouble : 2 * w.toNat % 2 ^ 64 = (w.toNat % 2 ^ 63) <<< 1 := by
    rw [Nat.shiftLeft_eq]
    omega
  rw [hdouble, Nat.shiftLeft_add_eq_or_of_lt hbit, ← hdouble, rolResult, BitVec.toNat_or,
    BitVec.toNat_shiftLeft, BitVec.toNat_ushiftRight, Nat.shiftLeft_eq, Nat.shiftRight_eq_div_pow,
    Nat.mul_comm, pow_one]

theorem rorResult_getLsbD_of_lt (w : Word) {i : Nat} (hi : i < 63) :
    (rorResult w).getLsbD i = w.getLsbD (i + 1) := by
  rw [rorResult_eq, BitVec.getLsbD_rotateRight, decide_eq_true (by omega), cond_true, Nat.add_comm i]

theorem rorResult_getLsbD_last (w : Word) : (rorResult w).getLsbD 63 = w.getLsbD 0 := by
  rw [rorResult_eq, BitVec.getLsbD_rotateRight]
  rfl

/-- The halved word has its bit 63 clear, and the other half has no other bit. -/
theorem rorResult_toNat (w : Word) : (rorResult w).toNat = w.toNat / 2 + w.toNat % 2 * 2 ^ 63 := by
  have hhalf : w.toNat / 2 < 2 ^ 63 := by have := w.isLt; omega
  have hbit : w.toNat <<< 63 % 2 ^ 64 = (w.toNat % 2) <<< 63 := by
    rw [Nat.shiftLeft_eq, Nat.shiftLeft_eq]
    omega
  rw [rorResult, BitVec.toNat_or, BitVec.toNat_shiftLeft, BitVec.toNat_ushiftRight, hbit,
    Nat.shiftRight_eq_div_pow, pow_one, Nat.or_comm, ← Nat.shiftLeft_add_eq_or_of_lt hhalf,
    Nat.shiftLeft_eq, Nat.add_comm]

/-- Settles O44: the new top is `rolResult x`, described by its bits and by its value. -/
theorem rolRotatesLeftByOne : Obligations.RolRotatesLeftByOne := fun _ x _ hs =>
  ⟨rolResult x, replaceTop_of_stack_eq_cons hs rolResult, fun _ => rolResult_getLsbD_of_pos x,
    rolResult_getLsbD_zero x, rolResult_toNat x⟩

/-- Settles O45: the new top is `rorResult x`, described by its bits and by its value. -/
theorem rorRotatesRightByOne : Obligations.RorRotatesRightByOne := fun _ x _ hs =>
  ⟨rorResult x, replaceTop_of_stack_eq_cons hs rorResult, fun _ => rorResult_getLsbD_of_lt x,
    rorResult_getLsbD_last x, rorResult_toNat x⟩

/-- Settles O46: the new top is `shlResult imm x`. -/
theorem shlMultipliesByAPowerOfTwo : Obligations.ShlMultipliesByAPowerOfTwo := fun _ imm x _ hs =>
  ⟨shlResult imm x, replaceTopOpi_of_stack_eq_cons hs (shlResult imm),
    shiftDistance_eq_toInt imm ▸ isWrap64_wrap64 _⟩

theorem shrResult_toInt (imm x : Word) : (shrResult imm x).toInt = x.toInt / 2 ^ (imm.toInt % 64).toNat := by
  rw [shrResult_eq, toInt_sshiftRight_eq_div, ← shiftDistance_eq, shiftDistance_eq_toInt]

/-- Settles O47: the new top is `shrResult imm x`, the arithmetic shift, which needs no wrap. -/
theorem shrFloorsByAPowerOfTwo : Obligations.ShrFloorsByAPowerOfTwo := fun _ imm x _ hs =>
  ⟨shrResult imm x, replaceTopOpi_of_stack_eq_cons hs (shrResult imm), shrResult_toInt imm x⟩

/-! ### ADD, SUB, MUL and DIV (44_binary_alu.md R143 to R148) -/

/-- Settles O50: the new top is `addResult x y`. -/
theorem addPushesTheWrappedSum : Obligations.AddPushesTheWrappedSum := fun _ x y _ hs =>
  ⟨addResult x y, combineTopTwo_of_stack_eq_cons_cons hs addResult, isWrap64_wrap64 _⟩

/-- Settles O51: the new top is `subResult x y`. -/
theorem subPushesFirstMinusSecond : Obligations.SubPushesFirstMinusSecond := fun _ x y _ hs =>
  ⟨subResult x y, combineTopTwo_of_stack_eq_cons_cons hs subResult, isWrap64_wrap64 _⟩

/-- Settles O52: the new top is `mulResult x y`. -/
theorem mulPushesTheLowProduct : Obligations.MulPushesTheLowProduct := fun _ x y _ hs =>
  ⟨mulResult x y, combineTopTwo_of_stack_eq_cons_cons hs mulResult, isWrap64_wrap64 _⟩

theorem toInt_eq_neg_one_iff {x : Word} : x.toInt = -1 ↔ x = -1#64 := by
  rw [← BitVec.toInt_inj, show (-1#64 : Word).toInt = -1 by decide]

/-- Only MIN / -1 leaves the range of a word. -/
theorem divResult_toInt {x y : Word} (h : ¬ (y = minWord ∧ x.toInt = -1)) :
    (divResult x y).toInt = y.toInt.tdiv x.toInt := by
  rw [toInt_eq_neg_one_iff, not_and_or] at h
  rw [divResult_eq, BitVec.toInt_sdiv_of_ne_or_ne y x h]

theorem divResult_minWord {x : Word} (h : x.toInt = -1) : divResult x minWord = minWord := by
  rw [toInt_eq_neg_one_iff.mp h]
  decide

theorem exec_div_of_ne_zero {s : State} {x y : Word} {rest : List Word} (hs : s.stack = x :: y :: rest)
    (hx : x.toInt ≠ 0) : exec .div s = .next (s.withStack (divResult x y :: rest)).advanceOp := by
  rw [exec_div, execDiv, withTopTwo_of_stack_eq_cons_cons hs, if_neg hx]

/-- Settles O53: the new top is `divResult x y`, with MIN / -1 apart. -/
theorem divPushesTheTruncatedQuotient : Obligations.DivPushesTheTruncatedQuotient :=
  fun _ x y _ hs hx => ⟨divResult x y, exec_div_of_ne_zero hs hx, divResult_toInt,
    fun ⟨hy, hx'⟩ => hy ▸ divResult_minWord hx'⟩

end Machine

end Sys2Proof

namespace Sys2Proof

/-! ### Decimal digits (45_output.md R161) -/

theorem isDecimalDigits_singleton (d : Byte) : isDecimalDigits [d] = isDigitByte d := rfl

/-- With two digits or more, the first is not zero. -/
theorem isDecimalDigits_cons {d : Byte} {ds : List Byte} (hne : ds ≠ []) :
    isDecimalDigits (d :: ds) = true ↔ isDigitByte d = true ∧ d ≠ 0x30#8 ∧ ds.all isDigitByte = true := by
  obtain ⟨e, es, rfl⟩ := List.exists_cons_of_ne_nil hne
  simp only [isDecimalDigits, Bool.and_eq_true, bne_iff_ne, and_assoc]

/-- A digit may follow any spelling but that of 0. -/
theorem isDecimalDigits_append_singleton {ds : List Byte} {d : Byte} (hds : isDecimalDigits ds = true)
    (hne : ds ≠ [0x30#8]) (hd : isDigitByte d = true) : isDecimalDigits (ds ++ [d]) = true := by
  match ds with
  | [] => cases hds
  | [e] =>
    rw [isDecimalDigits_singleton] at hds
    rw [List.singleton_append, isDecimalDigits_cons (List.cons_ne_nil d [])]
    exact ⟨hds, fun he => hne (by rw [he]), by rw [List.all_cons, hd, List.all_nil, Bool.true_and]⟩
  | e :: e' :: es =>
    obtain ⟨he, hnonzero, hes⟩ := (isDecimalDigits_cons (List.cons_ne_nil e' es)).mp hds
    rw [List.cons_append, isDecimalDigits_cons (by simp)]
    exact ⟨he, hnonzero, by rw [List.all_append, hes, List.all_cons, hd, List.all_nil]; rfl⟩

/-- A minus sign is no digit, so digits alone are a decimal spelling. -/
theorem isDecimalSpelling_of_isDecimalDigits {ds : List Byte} (h : isDecimalDigits ds = true) :
    isDecimalSpelling ds = true := by
  match ds with
  | [] => cases h
  | d :: ds =>
    have hd : isDigitByte d = true := by
      by_cases hds : ds = []
      · subst hds
        exact h
      · obtain ⟨hd, _⟩ := (isDecimalDigits_cons hds).mp h
        exact hd
    have hsign : d ≠ 0x2D#8 := by
      rintro rfl
      exact absurd hd (by decide)
    rw [isDecimalSpelling, if_neg hsign, h]

theorem isDecimalSpelling_minus_cons {ds : List Byte} (h : isDecimalDigits ds = true)
    (hne : ds ≠ [0x30#8]) : isDecimalSpelling (0x2D#8 :: ds) = true := by
  rw [isDecimalSpelling, if_pos rfl, h, Bool.true_and, bne_iff_ne]
  exact hne

namespace Machine

theorem digitsValue_append_singleton (ds : List Byte) (d : Byte) :
    digitsValue (ds ++ [d]) = 10 * digitsValue ds + (d.toNat - 0x30) := by
  rw [digitsValue, List.foldl_append]
  rfl

/-- The digit byte of a number below ten. -/
theorem digitByte_toNat (n : Nat) : (BitVec.ofNat 8 (0x30 + n % 10)).toNat = 0x30 + n % 10 := by
  rw [BitVec.toNat_ofNat]
  omega

theorem isDigitByte_digitByte (n : Nat) : isDigitByte (BitVec.ofNat 8 (0x30 + n % 10)) = true := by
  simp only [isDigitByte, Bool.and_eq_true, decide_eq_true_eq, BitVec.le_def, digitByte_toNat]
  constructor
  · exact Nat.le_add_right _ _
  · have hlt : n % 10 < 10 := Nat.mod_lt n (by decide)
    have hnine : (0x39#8).toNat = 0x30 + 9 := rfl
    omega

/-- `ds` is R161's spelling of `n`. -/
structure Spells (ds : List Byte) (n : Nat) : Prop where
  decimal : isDecimalDigits ds = true
  value : digitsValue ds = n

/-- Only 0 is spelled by the digit 0. -/
theorem Spells.ne_zero_digit {ds : List Byte} {n : Nat} (h : Spells ds n) (hn : n ≠ 0) : ds ≠ [0x30#8] := by
  rintro rfl
  exact hn h.value.symm

theorem spells_digit {n : Nat} (h : n < 10) : Spells [BitVec.ofNat 8 (0x30 + n % 10)] n where
  decimal := isDigitByte_digitByte n
  value := by
    rw [← List.nil_append [_], digitsValue_append_singleton, digitByte_toNat, Nat.mod_eq_of_lt h,
      Nat.add_sub_cancel_left]
    exact Nat.zero_add n

/-- The spelling of `n / 10`, which is not 0, and then the last digit. -/
theorem Spells.append_digit {ds : List Byte} {n : Nat} (h : Spells ds (n / 10)) (hn : ¬ n < 10) :
    Spells (ds ++ [BitVec.ofNat 8 (0x30 + n % 10)]) n where
  decimal := isDecimalDigits_append_singleton h.decimal (h.ne_zero_digit (by omega)) (isDigitByte_digitByte n)
  value := by
    rw [digitsValue_append_singleton, h.value, digitByte_toNat, Nat.add_sub_cancel_left]
    exact Nat.div_add_mod n 10

/-- As many digits of fuel as the number has are enough. -/
theorem digitsFuel_spells {fuel n : Nat} (h : n < 10 ^ (fuel + 1)) : Spells (digitsFuel (fuel + 1) n) n := by
  induction fuel generalizing n with
  | zero =>
    have hsmall : n < 10 := by rwa [Nat.zero_add, pow_one] at h
    rw [digitsFuel, if_pos hsmall]
    exact spells_digit hsmall
  | succ fuel ih =>
    rw [digitsFuel]
    split
    next hsmall => exact spells_digit hsmall
    next hlarge =>
      rw [pow_succ] at h
      exact (ih (Nat.div_lt_of_lt_mul (by rwa [Nat.mul_comm]))).append_digit hlarge

/-- Twenty digits are enough for the absolute value of a word. -/
theorem digitsFuel_natAbs_spells (v : Word) : Spells (digitsFuel 20 v.toInt.natAbs) v.toInt.natAbs := by
  have hlow := BitVec.le_toInt v
  have hhigh := BitVec.toInt_lt (x := v)
  exact digitsFuel_spells (by omega)

theorem decimal_eq (v : Word) :
    decimal v = (if v.toInt < 0 then [0x2D#8] else []) ++ digitsFuel 20 v.toInt.natAbs := by
  rw [decimal]
  split <;> rfl

/-- Settles O56: the digits are `digitsFuel` of the absolute value, which spells it. -/
theorem printedLineIsTheDecimalOfTheValue : Obligations.PrintedLineIsTheDecimalOfTheValue := fun _ v =>
  have hspells := digitsFuel_natAbs_spells v
  ⟨digitsFuel 20 v.toInt.natAbs, by rw [sinkLine, decimal_eq], hspells.decimal, hspells.value⟩

/-- What is written for a value is a decimal spelling, the minus sign only before a value that is not 0. -/
theorem isDecimalSpelling_decimal (v : Word) : isDecimalSpelling (decimal v) = true := by
  have hspells := digitsFuel_natAbs_spells v
  rw [decimal]
  split
  next hneg => exact isDecimalSpelling_minus_cons hspells.decimal (hspells.ne_zero_digit (by omega))
  next => exact isDecimalSpelling_of_isDecimalDigits hspells.decimal

theorem not_isDecimalSpelling_of_placeholderLegal {text : List Byte}
    (h : Config.placeholderLegal text = true) : isDecimalSpelling text = false := by
  simp only [Config.placeholderLegal, Bool.and_eq_true, Bool.not_eq_true'] at h
  obtain ⟨_, hspelling⟩ := h
  exact hspelling

/-- Settles O57: equal lines have equal texts before the line feed, and only one is a decimal
spelling. -/
theorem placeholderLineIsNoValueLine : Obligations.PlaceholderLineIsNoValueLine := by
  intro text v hlegal hline
  have htext : text = decimal v := List.append_cancel_right hline
  have hspelling := not_isDecimalSpelling_of_placeholderLegal hlegal
  rw [htext, isDecimalSpelling_decimal] at hspelling
  cases hspelling

end Machine

end Sys2Proof
